-- ==== Sys2Proof/Word.lean ====
section
/-! DEFINITION. The two widths of value the block handles (R9, R28 of spec/00_scope.md and spec/10_state.md): everything is unsigned. -/

namespace Sys2Proof

/-- A byte, 8 bits, bit 0 the least significant (R9). -/
abbrev Byte := BitVec 8

/-- The container of a key mask, `MASK_W` = 32 bits, key `i` is bit `i`, bits 31:24 unused (R8, R61). -/
abbrev Mask := BitVec 32

end Sys2Proof
end

