-- ==== Sys2Proof/Syntax.lean ====
section
/-! DEFINITION. The syntax: the 24 rows of spec/opcode_table.json, the chip's command set (R56, R57), the pin-event alphabet (R50) and the caller's requests. -/

namespace Sys2Proof

/-- The rows of spec/opcode_table.json, one constructor each (R64; R57 for the last five). Positions, counts and
brightness are naturals, so that a call outside its range can be written down and is refused (R152). -/
inductive Instr where
  /-- `startTransaction()` (R72) -/
  | startTransaction
  /-- `endTransaction()` (R73) -/
  | endTransaction
  /-- `writeBytes(bytes)` (R74) -/
  | writeBytes (bytes : List Byte)
  /-- `readBytes(count)` (R75) -/
  | readBytes (count : Nat)
  /-- `init()` (R76) -/
  | init
  /-- `deinit()` (R77) -/
  | deinit
  /-- `configureDisplay(brightness, on)` (R94) -/
  | configureDisplay (brightness : Nat) (on : Bool)
  /-- `setDigit(pattern, position)` (R95) -/
  | setDigit (pattern : Byte) (position : Nat)
  /-- `setDigits(patterns, startPosition, count)` (R96) -/
  | setDigits (patterns : List Byte) (startPosition count : Nat)
  /-- `setLeds(bitmask)` (R97) -/
  | setLeds (bitmask : Byte)
  /-- `setDigitHex(value, position)` (R99) -/
  | setDigitHex (value : Byte) (position : Nat)
  /-- `setDigitsHex(values, startPosition, count)` (R100) -/
  | setDigitsHex (values : List Byte) (startPosition count : Nat)
  /-- `setDigitsChar(chars, startPosition, count)` (R102) -/
  | setDigitsChar (chars : List Byte) (startPosition count : Nat)
  /-- `hexToPattern(value)`, a pure helper (R98) -/
  | hexToPattern (value : Byte)
  /-- `charToPattern(ch)`, a pure helper (R101) -/
  | charToPattern (ch : Byte)
  /-- `scanKeys()` (R121) -/
  | scanKeys
  /-- `decodeKeys(raw)`, pure (R122); "list of 4 bytes" is a vector of length 4 -/
  | decodeKeys (raw : Vector Byte 4)
  /-- `debounceInit()` (R136) -/
  | debounceInit
  /-- `debounceUpdate(rawMask)` (R137) -/
  | debounceUpdate (rawMask : Mask)
  /-- instruction byte `CMD_DATA_WRITE_AUTOINC` (R57), executed by the chip -/
  | cmdDataWriteAutoinc
  /-- instruction byte `CMD_DATA_WRITE_FIXED` (R57), executed by the chip; never sent by the block -/
  | cmdDataWriteFixed
  /-- instruction byte `CMD_DATA_READ_KEYS` (R57), executed by the chip -/
  | cmdDataReadKeys
  /-- instruction byte `CMD_DISPLAY(on, br)` (R57), executed by the chip -/
  | cmdDisplay (on : Bool) (br : BitVec 3)
  /-- instruction byte `CMD_ADDR(a)` (R57), executed by the chip -/
  | cmdAddr (a : BitVec 4)
deriving DecidableEq, Repr

/-- The addressing choice of the data mode (R19, R56). -/
inductive Addressing where
  | autoInc | fixed
deriving DecidableEq, Repr, Inhabited

/-- The normal or test choice of the data mode (R19, R56). -/
inductive Testing where
  | normal | test
deriving DecidableEq, Repr, Inhabited

/-- The write-to-register or read-key-scan choice of the data mode (R19, R56). -/
inductive Access where
  | write | readKeys
deriving DecidableEq, Repr, Inhabited

/-- The data mode: three independent choices (R19). -/
structure DataMode where
  addressing : Addressing
  testing    : Testing
  access     : Access
deriving DecidableEq, Repr, Inhabited

/-- What an instruction byte asks of the chip: "Three instruction classes, select by value" (R56). -/
inductive Command where
  /-- set data mode: normal or test, auto-increment or fixed address, and the two access bits of R57, of which `00` is
  write, `10` is read key scan, and the other two name no access (log 20) -/
  | dataMode (testing : Testing) (addressing : Addressing) (access : BitVec 2)
  /-- set display control -/
  | display (on : Bool) (br : BitVec 3)
  /-- set address -/
  | addr (a : BitVec 4)
deriving DecidableEq, Repr

/-- The direction of the data line (R11). -/
inductive Direction where
  | out | input
deriving DecidableEq, Repr, Inhabited

/-- One call of a handle primitive (R10, R50). -/
inductive Event where
  /-- `S0`, `S1`: `strobeWrite(b)` -/
  | strobe (b : Bool)
  /-- `C0`, `C1`: `clockWrite(b)` -/
  | clock (b : Bool)
  /-- `D0`, `D1`: `dataWrite(b)` -/
  | data (b : Bool)
  /-- `DO`: `dataConfigureOutput()` -/
  | dataOut
  /-- `DI`: `dataConfigureInput()` -/
  | dataIn
  /-- `R=b`: `dataRead()` returning `b` -/
  | read (b : Bool)
  /-- `Tn`: `delayMicroseconds(n)` -/
  | delay (n : Nat)
  /-- `PI`: `platformInit()` -/
  | platformInit
  /-- `PD`: `platformDeinit()` -/
  | platformDeinit
deriving DecidableEq, Repr

/-- One entry of the queue that stands where a program counter would (R12; log 1, 2): the caller calls an operation, or
a complete frame of one byte reaches the chip. -/
inductive Request where
  | call (i : Instr)
  | wire (b : Byte)
deriving DecidableEq, Repr

end Sys2Proof
end

