-- ==== Sys2Proof/Config.lean ====
section
/-! DEFINITION. The parameters of R8 and the free values: what has no body here is fixed by nothing, so a claim holds for every value of it. -/

namespace Sys2Proof

/-- `MAX`, the debounce counter's ceiling (R8, R25). -/
abbrev Config.maxCount : BitVec 3 := 4

/-- `N_KEYS`, the keys of a mask (R8, D14). -/
abbrev Config.nKeys : Nat := 24

/-- `N_RAW`, the raw bytes of a key scan (R8). -/
abbrev Config.nRaw : Nat := 4

/-- `N_REGS`, the registers of the Display Register File (R8, R17). -/
abbrev Config.nRegs : Nat := 16

/-- `N_DIGITS`, the digit positions (R8). -/
abbrev Config.nDigits : Nat := 8

/-- `N_CHAR_MAX`, the clamp of the character path (R8, R102). -/
abbrev Config.nCharMax : Nat := 8

/-- `T_SETTLE` in microseconds, at least 2 (R8, R173). -/
abbrev Config.tSettle : Nat := 5

/-- `BLANK`, all segments off (R8, D11). -/
abbrev Config.blank : Byte := 0x00

/-- `SENTINEL`, the pattern of an unsupported character (R8, R110). -/
abbrev Config.sentinel : Byte := 0x80

/-- The parameters `CMD_*`: the numeric instruction bytes, OPEN (R8, R57, D8, U19; log 4). They stand in State as plain
data that no step writes, so that a claim over every state is a claim over every value of them. -/
structure CommandBytes where
  /-- the data-mode bytes, by test bit, fixed-address bit and the two access bits -/
  modes    : Vector Byte 16
  /-- `CMD_DISPLAY(on, br)`, by `on` and the three bits of `br` -/
  displays : Vector Byte 16
  /-- `CMD_ADDR(a)`, by `a` -/
  addrs    : Vector Byte 16
deriving DecidableEq, Repr

/-- The defaults R57 gives the parameters (log 4): data mode `0100 TFAA`, display control `1000 NBBB`, address
`1100 AAAA`. -/
def CommandBytes.defaults : CommandBytes where
  modes    := Vector.ofFn fun i : Fin 16 => 0b0100#4 ++ BitVec.ofNat 4 i
  displays := Vector.ofFn fun i : Fin 16 => 0b1000#4 ++ BitVec.ofNat 4 i
  addrs    := Vector.ofFn fun i : Fin 16 => 0b1100#4 ++ BitVec.ofNat 4 i

/-- `T_HALF` in microseconds: OPEN, no value here (R8, D3; log 7). -/
opaque Config.tHalf : Nat

/-- Which nibble's bit the decoder shifts in first. -/
inductive NibbleFirst where
  | low | high
deriving DecidableEq, Repr, Inhabited

/-- `NIBBLE_FIRST`: OPEN, no value here (R8, D13; log 8). -/
opaque Config.nibbleFirst : NibbleFirst

/-- The one degree of freedom of the Segment Encoding Table (R108 to R112): how the 59 supported codes other than
space are spread, one to one, over the 127 patterns with a segment lit and bit 7 clear. No value here (D21; log 9). -/
opaque Config.segSpread : Equiv.Perm (Fin 127)

/-- The bit the wire answers to a `dataRead()` no queued answer is left for (R6, R21; log 6). -/
opaque Config.freeDraw : Nat → Bool

/-- The pin latches where the spec leaves them unspecified (R27, R77; log 15, 16). -/
opaque Config.freeClk : Nat → Bool
/-- See `Config.freeClk`. -/
opaque Config.freeStb : Nat → Bool
/-- See `Config.freeClk`. -/
opaque Config.freeDioOut : Nat → Bool
/-- See `Config.freeClk`. -/
opaque Config.freeDioDir : Nat → Direction

/-- The chip's registers where nothing may be concluded about the chip (R152, R176; log 18, 19): a display register,
also what it holds at power-up (R17, U7; log 13). -/
opaque Config.freeReg : Nat → Nat → Byte
/-- See `Config.freeReg`: DISP_ON. -/
opaque Config.freeDispOn : Nat → Bool
/-- See `Config.freeReg`: BRIGHT. -/
opaque Config.freeBright : Nat → BitVec 3
/-- See `Config.freeReg`: the data mode, also the access a data-mode byte selects whose access bits name none (log 20). -/
opaque Config.freeMode : Nat → DataMode
/-- See `Config.freeReg`: the address pointer, also after it has auto-incremented past a data byte (R20; log 22):
the second argument tells the data bytes of a frame apart. -/
opaque Config.freeAddrPtr : Nat → Nat → BitVec 4

end Sys2Proof
end

