-- ==== Sys2Proof/WellFormed.lean ====
section
/-! DEFINITION. When the arguments of an instruction keep their preconditions (the `requires` lines of R94, R96, R100, R102 and R105, R152): a check on the syntax alone. -/

namespace Sys2Proof

/-- The preconditions of a multi-digit write of `count` digits from `start` out of a list of length `len`
(R64, R96, R105, D18): `count <= len`, `start` 0 to 7, and `start + count <= 8`. -/
def digitsInRange (start count len : Nat) : Bool :=
  decide (count ≤ len) && decide (start < Config.nDigits) && decide (start + count ≤ Config.nDigits)

/-- The arguments keep every precondition of their instruction. -/
def Instr.wf : Instr → Bool
  | .startTransaction => true
  | .endTransaction => true
  | .writeBytes _ => true
  | .readBytes _ => true
  | .init => true
  | .deinit => true
  | .configureDisplay brightness _ => decide (brightness ≤ 7)
  | .setDigit _ position => digitsInRange position 1 1
  | .setDigits patterns start count => digitsInRange start count patterns.length
  | .setLeds _ => true
  | .setDigitHex _ position => digitsInRange position 1 1
  | .setDigitsHex values start count => digitsInRange start count values.length
  | .setDigitsChar chars start count => digitsInRange start (min count Config.nCharMax) chars.length
  | .hexToPattern _ => true
  | .charToPattern _ => true
  | .scanKeys => true
  | .decodeKeys _ => true
  | .debounceInit => true
  | .debounceUpdate _ => true
  | .cmdDataWriteAutoinc => true
  | .cmdDataWriteFixed => true
  | .cmdDataReadKeys => true
  | .cmdDisplay _ _ => true
  | .cmdAddr _ => true

end Sys2Proof
end

