-- ==== Sys2Proof/Decode.lean ====
section
/-! DEFINITION. The decoder of instruction bytes, total on any bytes and rejecting by name, the encoder beside it (R56, R57), and the byte and bit-cell encodings of the wire (R51 to R54). Operations have no opcode (R64; log 3). -/

namespace Sys2Proof

/-! ## Instruction bytes under the parameters `CMD_*` (R56, R57; log 4) -/

/-- The data mode of `CMD_DATA_WRITE_AUTOINC`: auto-increment, normal, write (R57). -/
def modeWriteAutoinc : DataMode := ⟨.autoInc, .normal, .write⟩
/-- The data mode of `CMD_DATA_WRITE_FIXED`: fixed address, normal, write (R57). -/
def modeWriteFixed : DataMode := ⟨.fixed, .normal, .write⟩
/-- The data mode of `CMD_DATA_READ_KEYS`: auto-increment, normal, read key scan (R57). -/
def modeReadKeys : DataMode := ⟨.autoInc, .normal, .readKeys⟩

/-- The data mode that writes following data bytes to registers, the test choice off (R19, R56). -/
abbrev DataMode.writes (m : DataMode) : Prop := m.access = .write ∧ m.testing = .normal

/-- Where a data-mode byte stands in its table: test bit, fixed-address bit, access bits (R57). -/
def modeIndex (testing : Testing) (addressing : Addressing) (access : BitVec 2) : BitVec 4 :=
  BitVec.ofBool (decide (testing = .test)) ++ BitVec.ofBool (decide (addressing = .fixed)) ++ access

/-- Where a display-control byte stands in its table: the on bit, the brightness (R57). -/
def displayIndex (on : Bool) (br : BitVec 3) : BitVec 4 := BitVec.ofBool on ++ br

/-- The byte of a command of the chip. -/
def encodeCommand (k : CommandBytes) : Command → Byte
  | .dataMode testing addressing access =>
    k.modes[(modeIndex testing addressing access).toNat]'(modeIndex testing addressing access).isLt
  | .display on br => k.displays[(displayIndex on br).toNat]'(displayIndex on br).isLt
  | .addr a => k.addrs[a.toNat]'a.isLt

/-- `CMD_DATA_WRITE_AUTOINC` (R57). -/
def CommandBytes.dataWriteAutoinc (k : CommandBytes) : Byte := encodeCommand k (.dataMode .normal .autoInc 0b00)
/-- `CMD_DATA_WRITE_FIXED` (R57). -/
def CommandBytes.dataWriteFixed (k : CommandBytes) : Byte := encodeCommand k (.dataMode .normal .fixed 0b00)
/-- `CMD_DATA_READ_KEYS` (R57). -/
def CommandBytes.dataReadKeys (k : CommandBytes) : Byte := encodeCommand k (.dataMode .normal .autoInc 0b10)
/-- `CMD_DISPLAY(on, br)` (R57). -/
def CommandBytes.display (k : CommandBytes) (on : Bool) (br : BitVec 3) : Byte := encodeCommand k (.display on br)
/-- `CMD_ADDR(a)` (R57). -/
def CommandBytes.addr (k : CommandBytes) (a : BitVec 4) : Byte := encodeCommand k (.addr a)

/-- Every command of the chip. -/
def allCommands : List Command :=
  ([.normal, .test].flatMap fun t => [.autoInc, .fixed].flatMap fun a =>
    (List.range 4).map fun x => .dataMode t a (BitVec.ofNat 2 x)) ++
  ([false, true].flatMap fun on => (List.range 8).map fun br => .display on (BitVec.ofNat 3 br)) ++
  ((List.range 16).map fun a => .addr (BitVec.ofNat 4 a))

/-- "the three classes and all their members are distinct bytes" (R57): what the source asks of the parameters. -/
abbrev CommandBytes.Ok (k : CommandBytes) : Prop := (allCommands.map (encodeCommand k)).Nodup

/-- Why bytes are no instruction. -/
inductive DecodeError where
  /-- there is no byte to decode -/
  | empty
  /-- the byte is no member of the three instruction classes (R56, R57) -/
  | noClass
  /-- a data mode the chip has and no row of the opcode table stands for: test modes, fixed-address key scan, access bits
  that name no access (R57, R63) -/
  | noTableRow
deriving DecidableEq, Repr

/-- The command an instruction byte asks for. -/
def decodeCommand (k : CommandBytes) (b : Byte) : Except DecodeError Command :=
  match allCommands.find? fun c => encodeCommand k c == b with
  | some c => .ok c
  | none => .error .noClass

/-- The command of an instruction-byte constructor; none for an operation. -/
def Instr.command : Instr → Option Command
  | .startTransaction => none
  | .endTransaction => none
  | .writeBytes _ => none
  | .readBytes _ => none
  | .init => none
  | .deinit => none
  | .configureDisplay _ _ => none
  | .setDigit _ _ => none
  | .setDigits _ _ _ => none
  | .setLeds _ => none
  | .setDigitHex _ _ => none
  | .setDigitsHex _ _ _ => none
  | .setDigitsChar _ _ _ => none
  | .hexToPattern _ => none
  | .charToPattern _ => none
  | .scanKeys => none
  | .decodeKeys _ => none
  | .debounceInit => none
  | .debounceUpdate _ => none
  | .cmdDataWriteAutoinc => some (.dataMode .normal .autoInc 0b00)
  | .cmdDataWriteFixed => some (.dataMode .normal .fixed 0b00)
  | .cmdDataReadKeys => some (.dataMode .normal .autoInc 0b10)
  | .cmdDisplay on br => some (.display on br)
  | .cmdAddr a => some (.addr a)

/-- The row of the opcode table that stands for a command, where there is one. -/
def Command.instr : Command → Except DecodeError Instr
  | .dataMode .normal .autoInc access =>
    if access = 0b00 then .ok .cmdDataWriteAutoinc
    else if access = 0b10 then .ok .cmdDataReadKeys
    else .error .noTableRow
  | .dataMode .normal .fixed access => if access = 0b00 then .ok .cmdDataWriteFixed else .error .noTableRow
  | .dataMode .test _ _ => .error .noTableRow
  | .display on br => .ok (.cmdDisplay on br)
  | .addr a => .ok (.cmdAddr a)

/-- The instruction the first byte stands for, and the bytes after it. -/
def decode (k : CommandBytes) : List Byte → Except DecodeError (Instr × List Byte)
  | [] => .error .empty
  | b :: rest =>
    match decodeCommand k b with
    | .error e => .error e
    | .ok c =>
      match c.instr with
      | .error e => .error e
      | .ok i => .ok (i, rest)

/-- The bytes of an instruction: one byte for an instruction-byte row, none for an operation, which has no opcode
(R64). -/
def encode (k : CommandBytes) (i : Instr) : Option (List Byte) := i.command.map fun c => [encodeCommand k c]

/-- What the decoder reads from the low `nbits` bits of `w`, laid out as one byte (the only width the table has), under
the default parameters, which are the table's words. -/
def decodeTableWord (nbits w : Nat) : Option Instr :=
  match decode CommandBytes.defaults [BitVec.ofNat 8 (w % 2 ^ nbits)] with
  | .ok (i, []) => some i
  | _ => none

/-! ## Bytes and bits on the wire (R53) -/

/-- The bits of a byte in wire order, least significant first (R53). -/
def bitsOfByte (v : Byte) : List Bool := (List.range 8).map fun j => v.getLsbD j

/-- The byte whose bit `j` is the `j`-th of the bits (R53); bits past the eighth are dropped. -/
def byteOfBits (bits : List Bool) : Byte := BitVec.ofFnLE fun j : Fin 8 => bits.getD j false

/-- The bytes of a bit stream, 8 bits each, in order. -/
def bytesOfBits (n : Nat) (bits : List Bool) : List Byte :=
  (List.range n).map fun m => byteOfBits (bits.drop (8 * m))

/-! ## Bit cells (R51, R52) -/

/-- The write bit cell `D<b> C0 Th C1 Th` (R51). -/
def writeCell (b : Bool) : List Event :=
  [.data b, .clock false, .delay Config.tHalf, .clock true, .delay Config.tHalf]

/-- The read bit cell `C0 Th C1 R=b Th` (R52). -/
def readCell (b : Bool) : List Event :=
  [.clock false, .delay Config.tHalf, .clock true, .read b, .delay Config.tHalf]

/-- The events of sending one byte: 8 write cells, bit 0 first (R53). -/
def byteCells (v : Byte) : List Event := (bitsOfByte v).flatMap writeCell

/-- The events of `writeBytes(bytes)` (R74). -/
def writeEvents (bytes : List Byte) : List Event := .dataOut :: bytes.flatMap byteCells

/-- The events of a `readBytes` whose samples are `bits` (R75). -/
def readEvents (bits : List Bool) : List Event :=
  .dataIn :: .delay Config.tSettle :: bits.flatMap readCell

/-- A frame that writes `bytes` and reads nothing (R54): `S0`, `writeBytes`, `S1`. -/
def frameEvents (bytes : List Byte) : List Event :=
  .strobe false :: (writeEvents bytes ++ [.strobe true])

end Sys2Proof
end

