-- ==== Sys2Proof/Machine/State.lean ====
section
/-! DEFINITION. The state: everything the spec gives the block and the chip (spec/10_state.md), the recorded outputs, and the model's own fields; the state after reset; the faults and refusals. -/

namespace Sys2Proof.Machine

/-- The output latches of the block's pins (R11). `DIO_IN` is an input: `State.draws`. -/
structure Pins where
  /-- `CLK` -/
  clk    : Bool
  /-- `STB`, low while a frame is open -/
  stb    : Bool
  /-- `DIO_OUT` -/
  dioOut : Bool
  /-- `DIO_DIR` -/
  dioDir : Direction
deriving DecidableEq, Repr

/-- The Debounce State (R14): one counter of 3 bits for each of the 24 keys, and the stable mask. -/
structure Debounce where
  cnt    : Vector (BitVec 3) 24
  stable : Mask
deriving DecidableEq, Repr

/-- The transient working registers (R13). An operation that uses one writes it before it reads it; what stands in one
between operations is what the last such operation left (log 14). -/
structure Work where
  /-- `SHIFT`, the byte on the wire -/
  shift  : Byte
  /-- `BITIDX`, which bit of `SHIFT` is on the wire -/
  bitIdx : BitVec 3
  /-- `RAW[0..3]`, the raw bytes of a key scan -/
  raw    : Vector Byte 4
  /-- `ACC`, the decoder's accumulator -/
  acc    : Mask
  /-- `KSEL`, the key line being extracted -/
  ksel   : BitVec 2
deriving DecidableEq, Repr

/-- A byte memory: (address, byte) pairs, addresses strictly rising. An address that is not listed does not exist and
reads as no value; the 16 registers that exist are all listed (log 13). -/
abbrev Memory := List Host.Cell

/-- What the chip holds (R17 to R20). -/
structure Peer where
  /-- the Display Register File `DR[0..15]` (R17) -/
  dr      : Memory
  /-- `DISP_ON` (R18) -/
  dispOn  : Bool
  /-- `BRIGHT` (R18) -/
  bright  : BitVec 3
  /-- the data-mode setting (R19) -/
  mode    : DataMode
  /-- the address pointer (R20) -/
  addrPtr : BitVec 4
deriving DecidableEq, Repr

/-- How far the caller has kept the framing premise of R176 in the frame now open (log 18). -/
inductive Framing where
  /-- no frame is open and the premise has been kept -/
  | idle
  /-- a frame is open and nothing was written in it -/
  | opened
  /-- exactly one `writeBytes` was made in the open frame, with these bytes -/
  | wrote (bytes : List Byte)
  /-- then exactly one `readBytes` -/
  | readBack (bytes : List Byte)
  /-- the premise was broken: nothing may be concluded about the chip from here on -/
  | broken
deriving DecidableEq, Repr

/-- The value an operation returns (R7, R64). -/
inductive Ret where
  /-- no result -/
  | none
  /-- the list of `readBytes` -/
  | bytes (bs : List Byte)
  /-- the raw mask of `scanKeys` and `decodeKeys`, the stable mask of `debounceUpdate` -/
  | mask (m : Mask)
  /-- the pattern byte of the two pure helpers -/
  | pattern (p : Byte)
deriving DecidableEq, Repr

/-- The machine's state. -/
structure State where
  /-- the pin latches (R11) -/
  pins      : Pins
  /-- `txn_open` (R22) -/
  txnOpen   : Bool
  /-- `inited` (R23) -/
  inited    : Bool
  /-- the Debounce State (R14) -/
  debounce  : Debounce
  /-- the working registers (R13) -/
  work      : Work
  /-- the chip (R17 to R20) -/
  peer      : Peer
  /-- the parameters `CMD_*`, which no step writes (R8, R25; log 4) -/
  codes     : CommandBytes
  /-- the pin-event trace, oldest event first: an output, never read by an operation (R7, R26) -/
  trace     : List Event
  /-- what the last completed operation returned: an output (R7; log 29) -/
  ret       : Ret
  /-- the model's own: the framing premise (R176; log 18) -/
  framing   : Framing
  /-- the model's own: the caller's choices still to come (R5, R12; log 1) -/
  requests  : List Request
  /-- the model's own: the answers the wire has ready for the next `dataRead()` calls (R6, R21; log 6) -/
  draws     : List Bool
  /-- the model's own: the index of the next free value (log 25) -/
  freeCount : Nat
deriving DecidableEq, Repr

/-- Faults. There is none: "The block raises no synchronous exception" (R150), so no step ends in one. -/
inductive Fault where
deriving DecidableEq, Repr

/-- Why a step gives a call no meaning (R152). Every one is safe: a claim about a run that contains it cannot be
proved. -/
inductive Refusal where
  /-- an instruction of the table with no meaning yet; raised by an arm of `exec` only; safe -/
  | notModelled (mnemonic : String)
  /-- a bus operation while `inited = 0` (R152, U4); raised by every bus operation; safe -/
  | notInitialised
  /-- `init` while `inited = 1` (R152, U20); raised by `init`; safe -/
  | alreadyInitialised
  /-- `deinit` while `txn_open = 1` (R152, U20); raised by `deinit`; safe -/
  | deinitInsideFrame
  /-- a protocol operation or `scanKeys` while `txn_open = 1` (R152, U5); raised by those; safe -/
  | protocolInsideFrame
  /-- `brightness > 7` (R94, R152); raised by `configureDisplay`; safe -/
  | brightnessOutOfRange
  /-- `startPosition + count > 8`, or a start or position above 7 (R64, R105, R152, D18, U2; log 23); raised by the digit
  operations; safe -/
  | positionOutOfRange
  /-- `count > len(list)` (R96, R100, R102, R152); raised by the multi-digit operations; safe -/
  | listTooShort
deriving DecidableEq, Repr

/-- The machine after reset: the values of R14, R22, R23 where the spec gives them, else those the log names (log 4, 10
to 14, 25, 29). -/
def State.reset : State where
  pins      := { clk := false, stb := false, dioOut := false, dioDir := .input }
  txnOpen   := false
  inited    := false
  debounce  := { cnt := Vector.replicate 24 0, stable := 0 }
  work      := { shift := 0, bitIdx := 0, raw := Vector.replicate 4 0, acc := 0, ksel := 0 }
  peer      := { dr := (List.range Config.nRegs).map fun a => (a, Config.freeReg 0 a),
                 dispOn := false, bright := 0, mode := modeWriteAutoinc, addrPtr := 0 }
  codes     := CommandBytes.defaults
  trace     := []
  ret       := .none
  framing   := .idle
  requests  := []
  draws     := []
  freeCount := 1

end Sys2Proof.Machine
end

