-- ==== Sys2Proof/Machine/Ops.lean ====
section
/-! DEFINITION. The operations every meaning is built from: memory, pins and trace, draws, the chip, the framing premise, the four transport operations unchecked, frames, and fetching. The block has no exception to take and none to return from (R150, R157, R158). -/

namespace Sys2Proof.Machine

/-! ## Memory: the Display Register File (R17, R30, R31) -/

/-- The byte at an address; none at an address that does not exist (R30; log 13). -/
def Memory.read : Memory → Nat → Option Byte
  | [], _ => none
  | (b, v) :: m, a => if a = b then some v else Memory.read m a

/-- Write one byte and keep the addresses strictly rising. -/
def Memory.write : Memory → Nat → Byte → Memory
  | [], a, v => [(a, v)]
  | (b, w) :: m, a, v =>
    if a < b then (a, v) :: (b, w) :: m
    else if a = b then (a, v) :: m
    else (b, w) :: Memory.write m a v

/-- The canonical form: the entries are the 16 registers of R30, in rising order of address. An unlisted address reads
as no value, so no entry can equal it. -/
abbrev Memory.wf (m : Memory) : Prop := m.map Prod.fst = List.range Config.nRegs

/-! ## Pins and trace (R11, R50) -/

/-- The effect of one primitive call on the latches (R50). `platformInit` and `platformDeinit` stand in
`State.platformUp` and `State.platformDown`. -/
def Pins.apply (p : Pins) : Event → Pins
  | .strobe b => { p with stb := b }
  | .clock b => { p with clk := b }
  | .data b => { p with dioOut := b }
  | .dataOut => { p with dioDir := .out }
  | .dataIn => { p with dioDir := .input }
  | .read _ => p
  | .delay _ => p
  | .platformInit => p
  | .platformDeinit => p

/-- Make these primitive calls, in this order: they go to the trace and set the latches (R42, R50). -/
def State.emit (s : State) (es : List Event) : State :=
  { s with trace := s.trace ++ es, pins := es.foldl Pins.apply s.pins }

/-- The operation returns this. -/
def State.withRet (s : State) (r : Ret) : State := { s with ret := r }

/-! ## Draws: the bits `dataRead()` returns (R6, R21; log 6) -/

/-- The next `n` answers of the wire: those queued, then free ones. -/
def State.answers (s : State) (n : Nat) : List Bool :=
  s.draws.take n ++
    (List.range (n - s.draws.length)).map fun k => Config.freeDraw (s.freeCount + k)

/-- After `n` answers were taken. -/
def State.dropAnswers (s : State) (n : Nat) : State :=
  { s with draws := s.draws.drop n, freeCount := s.freeCount + (n - s.draws.length) }

/-! ## The chip (R17 to R20, R33, R47; log 17). `n` is the index of the free values a function uses. -/

/-- A chip about which nothing is known: a free value in every register. -/
def Peer.unknown (n : Nat) : Peer where
  dr      := (List.range Config.nRegs).map fun a => (a, Config.freeReg n a)
  dispOn  := Config.freeDispOn n
  bright  := Config.freeBright n
  mode    := Config.freeMode n
  addrPtr := Config.freeAddrPtr n 0

/-- The access the two access bits of a data-mode byte select: `00` write, `10` read key scan (R57); a free value where
they name none (log 20). -/
def accessOf (n : Nat) (bits : BitVec 2) : Access :=
  if bits = 0b00 then .write else if bits = 0b10 then .readKeys else (Config.freeMode n).access

/-- The chip obeys an instruction byte (R18, R19, R20, R56). -/
def Peer.command (p : Peer) (n : Nat) : Command → Peer
  | .dataMode testing addressing access => { p with mode := ⟨addressing, testing, accessOf n access⟩ }
  | .display on br => { p with dispOn := on, bright := br }
  | .addr a => { p with addrPtr := a }

/-- The address pointer past data byte `i` of a frame (R19, R20, R56): in fixed-address mode it stays; in auto-increment
mode it has been "advanced by the chip" to where the spec does not say (log 22). -/
def Peer.advance (p : Peer) (n i : Nat) : Peer :=
  { p with addrPtr := if p.mode.addressing = .fixed then p.addrPtr else Config.freeAddrPtr n i }

/-- The chip takes data byte `i` of a frame: `DR[addr] <- v` (R33, R47), and the pointer moves as the mode says. -/
def Peer.store (p : Peer) (n i : Nat) (v : Byte) : Peer :=
  ({ p with dr := Memory.write p.dr p.addrPtr.toNat v }).advance n i

/-- The chip takes several data bytes of one frame, in order. -/
def Peer.storeAll (p : Peer) (n : Nat) (vs : List Byte) : Peer :=
  vs.zipIdx.foldl (fun p v => p.store n v.2 v.1) p

/-- A frame that wrote one instruction byte, then these data bytes, and read nothing. `[CMD_ADDR(a), v]` stores `v` in
every data mode: "on each completed frame" (R47; R33 promises it of write mode, log 21). Of more data bytes the spec says
only that the data mode selects "how following data bytes are treated" (R56): in normal write mode each is stored where
the pointer stands; in another mode nothing is known of the chip afterwards (log 19). -/
def Peer.writeFrame (p : Peer) (n : Nat) : Except DecodeError Command → List Byte → Peer
  | .ok c, [] => p.command n c
  | .ok (.addr a), [v] => (p.command n (.addr a)).store n 0 v
  | .ok (.addr a), v :: w :: vs =>
    if p.mode.writes then (p.command n (.addr a)).storeAll n (v :: w :: vs) else Peer.unknown n
  | _, _ => Peer.unknown n

/-- A frame that wrote one instruction byte, then these data bytes, and then read: a key-scan frame leaves the chip in
the mode its byte set, the pointer moved as that mode says (R19, R20, R121). -/
def Peer.readFrame (p : Peer) (n : Nat) : Except DecodeError Command → List Byte → Peer
  | .ok (.dataMode testing addressing access), [] =>
    if access = 0b10 then (p.command n (.dataMode testing addressing access)).advance n 0 else Peer.unknown n
  | _, _ => Peer.unknown n

/-- A completed frame reaches the chip: the frame shapes of R55 as the reference peer of R47 reads them; of any other
shape the spec gives no meaning, and nothing is known of the chip after it (log 19). -/
def Peer.frame (p : Peer) (k : CommandBytes) (n : Nat) (didRead : Bool) : List Byte → Peer
  | [] => Peer.unknown n
  | b :: rest =>
    match didRead with
    | false => p.writeFrame n (decodeCommand k b) rest
    | true => p.readFrame n (decodeCommand k b) rest

/-! ## The framing premise (R176; log 18) -/

/-- What a transport operation does to the frame. -/
inductive BusAct where
  | start
  | write (bytes : List Byte)
  | read
  | stop
deriving DecidableEq, Repr

/-- Every `startTransaction` is followed by exactly one `writeBytes`, optionally one `readBytes`, and one
`endTransaction`, and those occur only there (R176); anything else breaks the premise for good. -/
def Framing.next : Framing → BusAct → Framing
  | .idle, .start => .opened
  | .opened, .write bytes => .wrote bytes
  | .wrote bytes, .read => .readBack bytes
  | .wrote _, .stop => .idle
  | .readBack _, .stop => .idle
  | _, _ => .broken

/-- The chip after a transport operation: the premise kept, a frame that ends reaches it; the premise broken, now or
earlier, nothing may be concluded about it (R152). -/
def Peer.after (p : Peer) (k : CommandBytes) (n : Nat) : Framing → BusAct → Peer
  | .idle, .start => p
  | .opened, .write _ => p
  | .wrote _, .read => p
  | .wrote bytes, .stop => p.frame k n false bytes
  | .readBack bytes, .stop => p.frame k n true bytes
  | _, _ => Peer.unknown n

/-- One transport operation as the framing premise and the chip see it. -/
def State.frameAct (s : State) (act : BusAct) : State :=
  { s with
    framing   := s.framing.next act
    peer      := s.peer.after s.codes s.freeCount s.framing act
    freeCount := s.freeCount + 1 }

/-- A complete frame of one byte reaches the chip, not sent by the block (log 5): its start, its write and its end, as
the framing premise and the chip see them. On an idle bus the chip takes the byte; in a frame of the block, or once the
premise is broken, the premise is broken and nothing may be concluded about the chip (R152, R176). -/
def State.chipFrame (s : State) (b : Byte) : State :=
  ((s.frameAct .start).frameAct (.write [b])).frameAct .stop

/-! ## The transport operations, unchecked (R72 to R77) -/

/-- What `SHIFT` and `BITIDX` hold after these bytes went over the wire: the last byte and bit 7 (R13; log 14). -/
def Work.afterBytes (w : Work) (bytes : List Byte) : Work :=
  match bytes.getLast? with
  | none => w
  | some v => { w with shift := v, bitIdx := 7 }

/-- `startTransaction()` (R72). -/
def State.startTxn (s : State) : State :=
  { (s.emit [.strobe false]).frameAct .start with txnOpen := true }

/-- `endTransaction()` (R73). -/
def State.endTxn (s : State) : State :=
  { (s.emit [.strobe true]).frameAct .stop with txnOpen := false }

/-- `writeBytes(bytes)` (R74). -/
def State.sendBytes (s : State) (bytes : List Byte) : State :=
  { (s.emit (writeEvents bytes)).frameAct (.write bytes) with work := s.work.afterBytes bytes }

/-- The bytes a `readBytes(count)` made now assembles: byte `m` from samples `8m` to `8m+7`, LSB first (R75). -/
def State.received (s : State) (count : Nat) : List Byte :=
  bytesOfBits count (s.answers (8 * count))

/-- `readBytes(count)` (R75), which returns `s.received count`. -/
def State.recvBytes (s : State) (count : Nat) : State :=
  { ((s.emit (readEvents (s.answers (8 * count)))).dropAnswers (8 * count)).frameAct .read with
    work := s.work.afterBytes (s.received count) }

/-- `init()` (R76): `platformInit()` leaves strobe and clock high (R27; log 15); the data latches are unspecified. -/
def State.platformUp (s : State) : State :=
  { s.emit [.platformInit] with
    pins := { clk := true, stb := true, dioOut := Config.freeDioOut s.freeCount, dioDir := Config.freeDioDir s.freeCount }
    inited := true
    freeCount := s.freeCount + 1 }

/-- `deinit()` (R77): "The pin latches are unspecified afterwards" (log 16). -/
def State.platformDown (s : State) : State :=
  { s.emit [.platformDeinit] with
    pins := { clk := Config.freeClk s.freeCount, stb := Config.freeStb s.freeCount,
              dioOut := Config.freeDioOut s.freeCount, dioDir := Config.freeDioDir s.freeCount }
    inited := false
    freeCount := s.freeCount + 1 }

/-! ## Frames (R55, R91, R92, R121) -/

/-- A frame that writes these bytes and reads nothing. -/
def State.sendFrame (s : State) (bytes : List Byte) : State :=
  ((s.startTxn).sendBytes bytes).endTxn

/-- `F_CMD(c)` (R91). -/
def State.frameCmd (s : State) (c : Byte) : State := s.sendFrame [c]

/-- `F_WR(a, v)` (R92): `MemWrite(a, 1, v)`. -/
def State.frameWrite (s : State) (a : BitVec 4) (v : Byte) : State := s.sendFrame [s.codes.addr a, v]

/-- One `F_WR` frame for each (address, byte), in list order. -/
def State.frameWrites (s : State) (ws : List (BitVec 4 × Byte)) : State :=
  ws.foldl (fun s w => s.frameWrite w.1 w.2) s

/-- The mode-select frame and then one `F_WR` frame each: the shape of `setDigits` (R96) and `setLeds` (R97). -/
def State.modeAndWrites (s : State) (ws : List (BitVec 4 × Byte)) : State :=
  (s.frameCmd s.codes.dataWriteAutoinc).frameWrites ws

/-- The state of `F_KEYS` after its write: `startTransaction(); writeBytes([CMD_DATA_READ_KEYS])` (R121). -/
def State.keysAsked (s : State) : State := (s.startTxn).sendBytes [s.codes.dataReadKeys]

/-- The raw bytes a `scanKeys()` made now reads, as a vector of `N_RAW` = 4 (R121). -/
def State.rawKeys (s : State) : Vector Byte 4 :=
  Vector.ofFn fun i : Fin 4 => (s.keysAsked.received Config.nRaw).getD i 0

/-- `F_KEYS` (R55, R121). -/
def State.frameKeys (s : State) : State := (s.keysAsked.recvBytes Config.nRaw).endTxn

/-! ## Fetching: the caller's next choice (R5, R12; log 1, 2) -/

/-- What stands next in the queue. -/
inductive Fetched where
  /-- the caller makes no call -/
  | idle
  /-- this instruction -/
  | instr (i : Instr)
  /-- a byte no row of the opcode table stands for -/
  | other (b : Byte)
deriving DecidableEq, Repr

/-- The next entry of the queue; a byte goes through the decoder. -/
def State.fetch (s : State) : Fetched :=
  match s.requests with
  | [] => .idle
  | .call i :: _ => .instr i
  | .wire b :: _ =>
    match decode s.codes [b] with
    | .ok (i, _) => .instr i
    | .error _ => .other b

/-- The entry fetched leaves the queue. -/
def State.popRequest (s : State) : State := { s with requests := s.requests.tail }

end Sys2Proof.Machine
end

