-- ==== Sys2Proof/Machine/Operands.lean ====
section
/-! DEFINITION. Operand forms: the preconditions and their refusals (R152), address assembly (R58), the LED byte (R62), the Segment Encoding Table (R108 to R112), the hex and character paths (R98, R101). -/

namespace Sys2Proof.Machine

/-! ## Preconditions (R152): the first that fails names the refusal (log 24) -/

/-- The outcome of a call whose precondition `g` failed, or the next state. -/
def guarded (g : Option Refusal) (t : State) : Host.Outcome State Fault Refusal :=
  match g with
  | some r => .refused r
  | none => .next t

/-- A bus operation needs `inited = 1` (R152). -/
def State.busGuard (s : State) : Option Refusal :=
  if s.inited then none else some .notInitialised

/-- A protocol operation also needs `txn_open = 0` (R152). -/
def State.protocolGuard (s : State) : Option Refusal :=
  s.busGuard.or (if s.txnOpen then some .protocolInsideFrame else none)

/-- `init` needs `inited = 0` (R152). -/
def State.initGuard (s : State) : Option Refusal :=
  if s.inited then some .alreadyInitialised else none

/-- `deinit` needs `inited = 1` and `txn_open = 0` (R77, R152). -/
def State.deinitGuard (s : State) : Option Refusal :=
  s.busGuard.or (if s.txnOpen then some .deinitInsideFrame else none)

/-- `count <= len(list)`, `startPosition` 0 to 7, and `startPosition + count <= 8` (R64, R96, R105, R152, D18; log 23). -/
def digitsGuard (start count len : Nat) : Option Refusal :=
  if count ≤ len then
    if start < Config.nDigits ∧ start + count ≤ Config.nDigits then none else some .positionOutOfRange
  else some .listTooShort

/-- `brightness <= 7` (R94, R152). -/
def brightnessGuard (brightness : Nat) : Option Refusal :=
  if brightness ≤ 7 then none else some .brightnessOutOfRange

/-! ## Addresses and data bytes (R58, R62) -/

/-- The address of the digit at a position: `2 * position` (R58). -/
def digitAddr (position : Nat) : BitVec 4 := BitVec.ofNat 4 (2 * position)

/-- The address of an LED: `2 * i + 1` (R58). -/
def ledAddr (i : Nat) : BitVec 4 := BitVec.ofNat 4 (2 * i + 1)

/-- The LED data byte, 0x01 or 0x00 (R62). -/
def ledByte (b : Bool) : Byte := (BitVec.ofBool b).setWidth 8

/-- The writes of `setDigits`: element `i` goes to `2 * (startPosition + i)`, ascending (R96). -/
def digitWrites (patterns : List Byte) (start : Nat) : List (BitVec 4 × Byte) :=
  (patterns.zipIdx start).map fun p => (digitAddr p.2, p.1)

/-- The writes of `setLeds`: bit `i` of the mask to `2 * i + 1`, ascending (R97). -/
def ledWrites (bitmask : Byte) : List (BitVec 4 × Byte) :=
  (List.range 8).map fun i => (ledAddr i, ledByte (bitmask.getLsbD i))

/-! ## The Segment Encoding Table (R108 to R113; log 9) -/

/-- Codes of the digits '0' to '9' (R109). -/
def isDigitCode (c : BitVec 7) : Bool := decide (0x30 ≤ c.toNat ∧ c.toNat ≤ 0x39)
/-- Codes of the letters 'a' to 'z' (R109). -/
def isLowerCode (c : BitVec 7) : Bool := decide (0x61 ≤ c.toNat ∧ c.toNat ≤ 0x7A)
/-- Codes of the letters 'A' to 'Z' (R109). -/
def isUpperCode (c : BitVec 7) : Bool := decide (0x41 ≤ c.toNat ∧ c.toNat ≤ 0x5A)

/-- The 23 punctuation characters of R109, in its order. -/
def punctuation : List (BitVec 7) :=
  [0x2E, 0x2C, 0x3B, 0x3A, 0x3D, 0x2B, 0x2F, 0x5C, 0x21, 0x3F, 0x5F, 0x2D, 0x5E, 0x22, 0x27, 0x25, 0x28, 0x29, 0x40,
   0x2A, 0x23, 0x3C, 0x3E]

/-- The supported set (R109). -/
def supportedCode (c : BitVec 7) : Bool :=
  isDigitCode c || isLowerCode c || isUpperCode c || c == 0x20 || punctuation.contains c

/-- The 60 codes over which the table is one-to-one: the supported set less the uppercase letters (R112). -/
def distinctCode (c : BitVec 7) : Bool := supportedCode c && !isUpperCode c

/-- An uppercase letter's lowercase code; every other code itself (R111). -/
def foldCase (c : BitVec 7) : BitVec 7 := if isUpperCode c then c + 0x20 else c

/-- `SEG`, the Segment Encoding Table (R108): an unsupported code is the sentinel (R110), space is blank (R109), an
uppercase letter shares its lowercase pattern (R111), and the rest are distinct patterns with a segment lit and bit 7
clear (R109, R112), which ones being left open. -/
def seg (c : BitVec 7) : Byte :=
  if supportedCode c then
    if c = 0x20 then Config.blank
    else BitVec.ofNat 8 ((Config.segSpread (Fin.ofNat 127 (foldCase c).toNat)).val + 1)
  else Config.sentinel

/-! ## The hex and character paths (R98, R101) -/

/-- The decimal-point request, bit 7 of the input (R59). -/
def decimalPoint (v : Byte) : Byte := v &&& 0x80

/-- The value or character code, bits 6:0 of the input (R59). -/
def codeBits (v : Byte) : BitVec 7 := v.extractLsb' 0 7

/-- `hexToPattern` over a table `SEG` (R98). -/
def hexPatternWith (table : BitVec 7 → Byte) (value : Byte) : Byte :=
  let v := codeBits value
  let p :=
    if v.toNat ≤ 9 then table (0x30 + v)
    else if v.toNat ≤ 15 then table (0x61 + (v - 10))
    else if 0x41 ≤ v.toNat ∧ v.toNat ≤ 0x46 then table v
    else if 0x61 ≤ v.toNat ∧ v.toNat ≤ 0x66 then table v
    else Config.blank
  p ||| decimalPoint value

/-- `charToPattern` over a table `SEG` (R101). -/
def charPatternWith (table : BitVec 7 → Byte) (ch : Byte) : Byte :=
  table (codeBits ch) ||| decimalPoint ch

/-- `hexToPattern(value)` (R98). -/
def hexPattern (value : Byte) : Byte := hexPatternWith seg value

/-- `charToPattern(ch)` (R101). -/
def charPattern (ch : Byte) : Byte := charPatternWith seg ch

end Sys2Proof.Machine
end

