-- ==== Sys2Proof/Machine/Flags.lean ====
section
/-! DEFINITION. The only flags the block has are the stable bits (R16, R28): how one key's counter and stable bit move with a sample, and the whole Debounce State (R137). -/

namespace Sys2Proof.Machine

/-- One key, one sample: the counter moves first, saturating at 0 and `MAX`; then the stable bit is set at `MAX` after a
pressed sample, cleared at 0 after a released one, and otherwise kept (R137, D16). -/
def debounceKey (count : BitVec 3) (stable sample : Bool) : BitVec 3 × Bool :=
  if sample then
    let count' := if count < Config.maxCount then count + 1 else count
    (count', if count' = Config.maxCount then true else stable)
  else
    let count' := if 0 < count then count - 1 else count
    (count', if count' = 0 then false else stable)

/-- The new counter and stable bit of key `i` (R135: from `cnt[i]`, `stable[i]` and bit `i` of the mask alone). -/
def Debounce.key (d : Debounce) (rawMask : Mask) (i : Fin 24) : BitVec 3 × Bool :=
  debounceKey d.cnt[i] (d.stable.getLsbD i) (rawMask.getLsbD i)

/-- `debounceUpdate`'s effect on the Debounce State (R137); bits 31:24 of `stable` are not written (R141). -/
def Debounce.update (d : Debounce) (rawMask : Mask) : Debounce where
  cnt    := Vector.ofFn fun i => (d.key rawMask i).1
  stable := BitVec.ofFnLE fun i : Fin 32 =>
    if h : i.val < 24 then (d.key rawMask ⟨i.val, h⟩).2 else d.stable.getLsbD i

/-- The zeroed Debounce State (R136). -/
def Debounce.zero : Debounce := { cnt := Vector.replicate 24 0, stable := 0 }

end Sys2Proof.Machine
end

