-- ==== Sys2Proof/Machine/DebounceFilter.lean ====
section
/-! DEFINITION. The Debounce Filter's two operations (spec/43_debounce_filter.md R136, R137): no pin, no bus call, available at all times (R160). -/

namespace Sys2Proof.Machine

/-- `debounceInit()` (R136). -/
def execDebounceInit (s : State) : Host.Outcome State Fault Refusal :=
  .next (({ s with debounce := Debounce.zero }).withRet .none)

/-- `debounceUpdate(rawMask)` returns the stable mask after the update (R137). -/
def execDebounceUpdate (rawMask : Mask) (s : State) : Host.Outcome State Fault Refusal :=
  .next (({ s with debounce := s.debounce.update rawMask }).withRet (.mask (s.debounce.update rawMask).stable))

end Sys2Proof.Machine
end

