-- ==== Sys2Proof/Machine/InstructionBytes.lean ====
section
/-! DEFINITION. The five instruction-byte rows (spec/30_encoding.md R56, R57), and a byte no row stands for: what each makes the chip do as a complete frame of its own. Their executor is the chip, so they call no handle primitive and return nothing. While a frame of the block is open the spec says nothing of such a byte, and the model breaks the framing premise there (log 5). -/

namespace Sys2Proof.Machine

/-- `CMD_DATA_WRITE_AUTOINC`: set data mode auto-increment, normal, write (R19, R57; in an open frame log 5). -/
def execCmdDataWriteAutoinc (s : State) : Host.Outcome State Fault Refusal :=
  .next (s.chipFrame s.codes.dataWriteAutoinc)

/-- `CMD_DATA_WRITE_FIXED`: set data mode fixed address, normal, write (R19, R57; in an open frame log 5). -/
def execCmdDataWriteFixed (s : State) : Host.Outcome State Fault Refusal :=
  .next (s.chipFrame s.codes.dataWriteFixed)

/-- `CMD_DATA_READ_KEYS`: set data mode auto-increment, normal, read key scan (R19, R57; in an open frame log 5). -/
def execCmdDataReadKeys (s : State) : Host.Outcome State Fault Refusal :=
  .next (s.chipFrame s.codes.dataReadKeys)

/-- `CMD_DISPLAY(on, br)`: set `DISP_ON` and `BRIGHT` (R18, R57; in an open frame log 5). -/
def execCmdDisplay (on : Bool) (br : BitVec 3) (s : State) : Host.Outcome State Fault Refusal :=
  .next (s.chipFrame (s.codes.display on br))

/-- `CMD_ADDR(a)`: set the address pointer (R20, R57; in an open frame log 5). -/
def execCmdAddr (a : BitVec 4) (s : State) : Host.Outcome State Fault Refusal :=
  .next (s.chipFrame (s.codes.addr a))

/-- A byte no row of the opcode table stands for: the chip takes a data mode it has (R19, R57; log 20), and of any other
byte the spec gives no meaning, so that nothing is known of the chip after it (log 19). -/
def execOtherByte (b : Byte) (s : State) : Host.Outcome State Fault Refusal := .next (s.chipFrame b)

end Sys2Proof.Machine
end

