-- ==== Sys2Proof/Machine/KeyScan.lean ====
section
/-! DEFINITION. The Key Scan Decoder (spec/42_key_scan_decoder.md R120 to R127): the reorder and its two operations. -/

namespace Sys2Proof.Machine

/-- Shift a bit into the accumulator at the least significant end (R122). -/
def shiftIn (acc : Mask) (b : Bool) : Mask := (acc <<< 1) ||| (BitVec.ofBool b).setWidth 32

/-- The two bits of one raw byte for key line `k`: bit `k` of the low nibble and bit `k` of the high nibble, in the
order `NIBBLE_FIRST` says (R122). -/
def nibbleBits (first : NibbleFirst) (raw : Byte) (k : Nat) : List Bool :=
  match first with
  | .low => [raw.getLsbD k, raw.getLsbD (k + 4)]
  | .high => [raw.getLsbD (k + 4), raw.getLsbD k]

/-- The 24 bits in the order they are shifted in: key lines 0 to 2, and for each the raw bytes from last to first
(R122). -/
def scanOrder (first : NibbleFirst) (raw : Vector Byte 4) : List Bool :=
  [0, 1, 2].flatMap fun k => ([3, 2, 1, 0] : List (Fin 4)).flatMap fun i => nibbleBits first raw[i] k

/-- `decodeKeys` for a given `NIBBLE_FIRST` (R122). -/
def decodeKeysWith (first : NibbleFirst) (raw : Vector Byte 4) : Mask :=
  (scanOrder first raw).foldl shiftIn 0

/-- The decoder of this block, `NIBBLE_FIRST` left open (R122; log 8). -/
def decodeRaw (raw : Vector Byte 4) : Mask := decodeKeysWith Config.nibbleFirst raw

/-- What the decoder leaves in `ACC` and `KSEL`: the mask and the last key line (R13; log 14). -/
def State.decoded (s : State) (raw : Vector Byte 4) : State :=
  { s with work := { s.work with acc := decodeRaw raw, ksel := 2 } }

/-- `scanKeys()`: one frame `F_KEYS`, the four bytes into `RAW`, and the mask they decode to (R121). -/
def execScanKeys (s : State) : Host.Outcome State Fault Refusal :=
  guarded s.protocolGuard
    ((({ s.frameKeys with work := { s.frameKeys.work with raw := s.rawKeys } }).decoded s.rawKeys).withRet
      (.mask (decodeRaw s.rawKeys)))

/-- `decodeKeys(raw)` (R122): pure, no bus call. -/
def execDecodeKeys (raw : Vector Byte 4) (s : State) : Host.Outcome State Fault Refusal :=
  .next ((s.decoded raw).withRet (.mask (decodeRaw raw)))

end Sys2Proof.Machine
end

