-- ==== Sys2Proof/Machine/Protocol.lean ====
section
/-! DEFINITION. The Register Protocol's seven operations and its two pure helpers (spec/41_register_protocol.md R94 to R102). -/

namespace Sys2Proof.Machine

/-- The frames of `setDigits` for `count` digits of the list (R96). -/
def State.writeDigits (s : State) (patterns : List Byte) (start count : Nat) : State :=
  s.modeAndWrites (digitWrites (patterns.take count) start)

/-- The frames of `setLeds` (R97). -/
def State.writeLeds (s : State) (bitmask : Byte) : State := s.modeAndWrites (ledWrites bitmask)

/-- `configureDisplay(brightness, on)`: the control frame, then all LEDs off, then all digits blank (R94). -/
def execConfigureDisplay (brightness : Nat) (on : Bool) (s : State) : Host.Outcome State Fault Refusal :=
  guarded (s.protocolGuard.or (brightnessGuard brightness))
    ((((s.frameCmd (s.codes.display on (BitVec.ofNat 3 brightness))).writeLeds 0x00).writeDigits
      (List.replicate Config.nDigits Config.blank) 0 Config.nDigits).withRet .none)

/-- `setDigit(pattern, position)` is `setDigits([pattern], position, 1)` (R95). -/
def execSetDigit (pattern : Byte) (position : Nat) (s : State) : Host.Outcome State Fault Refusal :=
  guarded (s.protocolGuard.or (digitsGuard position 1 1)) ((s.writeDigits [pattern] position 1).withRet .none)

/-- `setDigits(patterns, startPosition, count)` (R96). -/
def execSetDigits (patterns : List Byte) (start count : Nat) (s : State) : Host.Outcome State Fault Refusal :=
  guarded (s.protocolGuard.or (digitsGuard start count patterns.length))
    ((s.writeDigits patterns start count).withRet .none)

/-- `setLeds(bitmask)` (R97). -/
def execSetLeds (bitmask : Byte) (s : State) : Host.Outcome State Fault Refusal :=
  guarded s.protocolGuard ((s.writeLeds bitmask).withRet .none)

/-- `setDigitHex(value, position)` is `setDigit(hexToPattern(value), position)` (R99). -/
def execSetDigitHex (value : Byte) (position : Nat) (s : State) : Host.Outcome State Fault Refusal :=
  guarded (s.protocolGuard.or (digitsGuard position 1 1))
    ((s.writeDigits [hexPattern value] position 1).withRet .none)

/-- `setDigitsHex(values, startPosition, count)`: no clamp (R100). -/
def execSetDigitsHex (values : List Byte) (start count : Nat) (s : State) : Host.Outcome State Fault Refusal :=
  guarded (s.protocolGuard.or (digitsGuard start count values.length))
    ((s.writeDigits (values.map hexPattern) start count).withRet .none)

/-- `setDigitsChar(chars, startPosition, count)`: the count clamped to 8 first (R102). -/
def execSetDigitsChar (chars : List Byte) (start count : Nat) (s : State) : Host.Outcome State Fault Refusal :=
  guarded (s.protocolGuard.or (digitsGuard start (min count Config.nCharMax) chars.length))
    ((s.writeDigits (chars.map charPattern) start (min count Config.nCharMax)).withRet .none)

/-- `hexToPattern(value)` (R98): pure, no bus call. -/
def execHexToPattern (value : Byte) (s : State) : Host.Outcome State Fault Refusal :=
  .next (s.withRet (.pattern (hexPattern value)))

/-- `charToPattern(ch)` (R101): pure, no bus call. -/
def execCharToPattern (ch : Byte) (s : State) : Host.Outcome State Fault Refusal :=
  .next (s.withRet (.pattern (charPattern ch)))

end Sys2Proof.Machine
end

