-- ==== Sys2Proof/Machine/Transport.lean ====
section
/-! DEFINITION. The Bus Transport's six operations (spec/40_bus_transport.md R72 to R77). The four raw operations check only that the handle is initialised; used out of frame they still emit their events (R152). -/

namespace Sys2Proof.Machine

/-- `startTransaction()` (R72). -/
def execStartTransaction (s : State) : Host.Outcome State Fault Refusal :=
  guarded s.busGuard (s.startTxn.withRet .none)

/-- `endTransaction()` (R73). -/
def execEndTransaction (s : State) : Host.Outcome State Fault Refusal :=
  guarded s.busGuard (s.endTxn.withRet .none)

/-- `writeBytes(bytes)` (R74). -/
def execWriteBytes (bytes : List Byte) (s : State) : Host.Outcome State Fault Refusal :=
  guarded s.busGuard ((s.sendBytes bytes).withRet .none)

/-- `readBytes(count)` returns the bytes assembled from the samples (R75). -/
def execReadBytes (count : Nat) (s : State) : Host.Outcome State Fault Refusal :=
  guarded s.busGuard ((s.recvBytes count).withRet (.bytes (s.received count)))

/-- `init()` (R76). -/
def execInit (s : State) : Host.Outcome State Fault Refusal :=
  guarded s.initGuard (s.platformUp.withRet .none)

/-- `deinit()` (R77). -/
def execDeinit (s : State) : Host.Outcome State Fault Refusal :=
  guarded s.deinitGuard (s.platformDown.withRet .none)

end Sys2Proof.Machine
end

