-- ==== Sys2Proof/Machine/Dispatch.lean ====
section
/-! DEFINITION. One arm per row of spec/opcode_table.json. -/

namespace Sys2Proof.Machine

/-- The meaning of each instruction. -/
def exec (i : Instr) (s : State) : Host.Outcome State Fault Refusal :=
  match i with
  | .startTransaction => Sys2Proof.Machine.execStartTransaction s
  | .endTransaction => Sys2Proof.Machine.execEndTransaction s
  | .writeBytes bytes => Sys2Proof.Machine.execWriteBytes bytes s
  | .readBytes count => Sys2Proof.Machine.execReadBytes count s
  | .init => Sys2Proof.Machine.execInit s
  | .deinit => Sys2Proof.Machine.execDeinit s
  | .configureDisplay brightness on => Sys2Proof.Machine.execConfigureDisplay brightness on s
  | .setDigit pattern position => Sys2Proof.Machine.execSetDigit pattern position s
  | .setDigits patterns start count => Sys2Proof.Machine.execSetDigits patterns start count s
  | .setLeds bitmask => Sys2Proof.Machine.execSetLeds bitmask s
  | .setDigitHex value position => Sys2Proof.Machine.execSetDigitHex value position s
  | .setDigitsHex values start count => Sys2Proof.Machine.execSetDigitsHex values start count s
  | .setDigitsChar chars start count => Sys2Proof.Machine.execSetDigitsChar chars start count s
  | .hexToPattern value => Sys2Proof.Machine.execHexToPattern value s
  | .charToPattern ch => Sys2Proof.Machine.execCharToPattern ch s
  | .scanKeys => Sys2Proof.Machine.execScanKeys s
  | .decodeKeys raw => Sys2Proof.Machine.execDecodeKeys raw s
  | .debounceInit => Sys2Proof.Machine.execDebounceInit s
  | .debounceUpdate rawMask => Sys2Proof.Machine.execDebounceUpdate rawMask s
  | .cmdDataWriteAutoinc => Sys2Proof.Machine.execCmdDataWriteAutoinc s
  | .cmdDataWriteFixed => Sys2Proof.Machine.execCmdDataWriteFixed s
  | .cmdDataReadKeys => Sys2Proof.Machine.execCmdDataReadKeys s
  | .cmdDisplay on br => Sys2Proof.Machine.execCmdDisplay on br s
  | .cmdAddr a => Sys2Proof.Machine.execCmdAddr a s

end Sys2Proof.Machine
end

