-- ==== Sys2Proof/Machine/Step.lean ====
section
/-! DEFINITION. One step: the caller's next choice is fetched and runs to completion (R5, R12); with no choice to run, nothing happens (log 1). -/

namespace Sys2Proof.Machine

/-- One step of the machine. -/
def step (s : State) : Host.Outcome State Fault Refusal :=
  match s.fetch with
  | .idle => .next s
  | .instr i => exec i s.popRequest
  | .other b => Sys2Proof.Machine.execOtherByte b s.popRequest

/-- `s` with the byte in the low `nbits` bits of `w` as its next request, which is where a step fetches (log 2). -/
def State.withFetchWord (s : State) (nbits w : Nat) : State :=
  { s with requests := .wire (BitVec.ofNat 8 (w % 2 ^ nbits)) :: s.requests }

end Sys2Proof.Machine
end

