-- ==== Sys2Proof/Machine/Observer.lean ====
section
/-! DEFINITION. What can be read off a pin-event trace, for claims: the frames the three wires carry (R50 to R54), the busy-wait time (R184), the clock edges (R78). The machine never uses it (R26). -/

namespace Sys2Proof.Machine

/-- An observer on the three wires. -/
structure Watch where
  /-- the strobe is low -/
  inFrame : Bool
  /-- the block drives the data line -/
  driven  : Bool
  /-- the level the block last drove -/
  level   : Bool
  /-- the bits clocked out in the open frame -/
  bits    : List Bool
  /-- the bytes written in each completed frame -/
  frames  : List (List Byte)
deriving DecidableEq, Repr

/-- The observer takes a written bit when the clock rises; the block holds it from before the fall until after the rise
(R51, R79), so no claim depends on the edge. -/
def Watch.see (w : Watch) : Event → Watch
  | .strobe false => { w with inFrame := true, bits := [] }
  | .strobe true =>
    if w.inFrame then
      { w with inFrame := false, bits := [], frames := w.frames ++ [bytesOfBits (w.bits.length / 8) w.bits] }
    else w
  | .data b => { w with level := b }
  | .clock true => if w.inFrame && w.driven then { w with bits := w.bits ++ [w.level] } else w
  | .clock false => w
  | .dataOut => { w with driven := true }
  | .dataIn => { w with driven := false }
  | .read _ => w
  | .delay _ => w
  | .platformInit => w
  | .platformDeinit => w

/-- The byte lists of the frames these events carry, in order. -/
def framesSeen (es : List Event) : List (List Byte) :=
  (es.foldl Watch.see ⟨false, false, false, [], []⟩).frames

/-- The microseconds of one event: a lower bound, 0 where the spec states none (R183). -/
def eventBusy : Event → Nat
  | .delay n => n
  | _ => 0

/-- The lower bound on busy-wait time from the delay events alone (R184). -/
def busyTime (es : List Event) : Nat := (es.map eventBusy).sum

/-- The clock edges of a trace, `false` a falling one (`C0`) and `true` a rising one (`C1`). -/
def clockEdges : List Event → List Bool
  | [] => []
  | .clock b :: es => b :: clockEdges es
  | _ :: es => clockEdges es

/-- The samples a trace records (R50). -/
def samples : List Event → List Bool
  | [] => []
  | .read b :: es => b :: samples es
  | _ :: es => samples es

end Sys2Proof.Machine
end

