-- ==== Sys2Proof/Safety.lean ====
section
/-! DEFINITION. What claims mean by a good state: the invariants the spec's prose states about the whole machine. -/

namespace Sys2Proof.Machine

/-- The invariant of the Debounce State (R16, R141): every counter at most `MAX`; at `MAX` the stable bit is 1, at 0 it
is 0; bits 31:24 of `stable` are 0. -/
def Debounce.Ok (d : Debounce) : Prop :=
  (∀ i : Fin 24, d.cnt[i] ≤ Config.maxCount ∧
    (d.cnt[i] = Config.maxCount → d.stable.getLsbD i = true) ∧
    (d.cnt[i] = 0 → d.stable.getLsbD i = false)) ∧
  ∀ i : Nat, 24 ≤ i → d.stable.getLsbD i = false

/-- Between operations, while initialised: the clock is high (R78), and the strobe is low exactly while a frame is open
(R22). -/
def State.LinesOk (s : State) : Prop :=
  s.inited = true → s.pins.clk = true ∧ s.pins.stb = !s.txnOpen

/-- No frame is open outside the `init` to `deinit` window (R152, R171). -/
def State.WindowOk (s : State) : Prop := s.inited = false → s.txnOpen = false

/-- The framing premise's bookkeeping agrees with `txn_open` (R22, R176). -/
def State.FramingOk (s : State) : Prop :=
  match s.framing with
  | .idle => s.txnOpen = false
  | .opened => s.txnOpen = true
  | .wrote _ => s.txnOpen = true
  | .readBack _ => s.txnOpen = true
  | .broken => True

/-- The Display Register File is in canonical form: each of its 16 registers holds a byte, and there is no address above
15 (R17, R30, R40). -/
def State.MemoryOk (s : State) : Prop := Memory.wf s.peer.dr

/-- The invariant every step keeps. -/
structure State.Inv (s : State) : Prop where
  debounce : s.debounce.Ok
  lines    : s.LinesOk
  window   : s.WindowOk
  framing  : s.FramingOk
  memory   : s.MemoryOk
  codes    : s.codes.Ok

/-- The bus is free for a protocol operation: initialised, no frame open, the framing premise kept (R152, R176). -/
structure State.BusIdle (s : State) : Prop where
  inited  : s.inited = true
  txnOpen : s.txnOpen = false
  framing : s.framing = .idle

/-- The preconditions of a call, argument and state together: the table of R152, with the `requires` lines of R94, R96,
R100, R102. The pure helpers and the debounce operations have none (R160), nor, as the model has it, the chip's own
instruction bytes (log 5). -/
def Allowed (i : Instr) (s : State) : Prop :=
  match i with
  | .startTransaction => s.inited = true
  | .endTransaction => s.inited = true
  | .writeBytes _ => s.inited = true
  | .readBytes _ => s.inited = true
  | .init => s.inited = false
  | .deinit => s.inited = true ∧ s.txnOpen = false
  | .configureDisplay brightness _ => s.inited = true ∧ s.txnOpen = false ∧ brightness ≤ 7
  | .setDigit _ position => s.inited = true ∧ s.txnOpen = false ∧ position ≤ 7
  | .setDigits patterns start count =>
    s.inited = true ∧ s.txnOpen = false ∧ count ≤ patterns.length ∧ start ≤ 7 ∧ start + count ≤ 8
  | .setLeds _ => s.inited = true ∧ s.txnOpen = false
  | .setDigitHex _ position => s.inited = true ∧ s.txnOpen = false ∧ position ≤ 7
  | .setDigitsHex values start count =>
    s.inited = true ∧ s.txnOpen = false ∧ count ≤ values.length ∧ start ≤ 7 ∧ start + count ≤ 8
  | .setDigitsChar chars start count =>
    s.inited = true ∧ s.txnOpen = false ∧ min count 8 ≤ chars.length ∧ start ≤ 7 ∧ start + min count 8 ≤ 8
  | .hexToPattern _ => True
  | .charToPattern _ => True
  | .scanKeys => s.inited = true ∧ s.txnOpen = false
  | .decodeKeys _ => True
  | .debounceInit => True
  | .debounceUpdate _ => True
  | .cmdDataWriteAutoinc => True
  | .cmdDataWriteFixed => True
  | .cmdDataReadKeys => True
  | .cmdDisplay _ _ => True
  | .cmdAddr _ => True

/-- The operations of the Register Protocol and `scanKeys`: those that send complete frames of their own (R176). -/
def sendsOwnFrames : Instr → Bool
  | .startTransaction => false
  | .endTransaction => false
  | .writeBytes _ => false
  | .readBytes _ => false
  | .init => false
  | .deinit => false
  | .configureDisplay _ _ => true
  | .setDigit _ _ => true
  | .setDigits _ _ _ => true
  | .setLeds _ => true
  | .setDigitHex _ _ => true
  | .setDigitsHex _ _ _ => true
  | .setDigitsChar _ _ _ => true
  | .hexToPattern _ => false
  | .charToPattern _ => false
  | .scanKeys => true
  | .decodeKeys _ => false
  | .debounceInit => false
  | .debounceUpdate _ => false
  | .cmdDataWriteAutoinc => false
  | .cmdDataWriteFixed => false
  | .cmdDataReadKeys => false
  | .cmdDisplay _ _ => false
  | .cmdAddr _ => false

/-- `t` differs from `s` at most in what an operation of the bus may write: the pins, the trace, the chip, the
transport's working registers `SHIFT` and `BITIDX`, the last result, and the model's own bookkeeping of frames and free
values. The Debounce State, `txn_open`, `inited`, the other working registers, the parameters `CMD_*`, the caller's
queue and the wire's answers are as they were. -/
structure State.OnlyBus (s t : State) : Prop where
  debounce : t.debounce = s.debounce
  txnOpen  : t.txnOpen = s.txnOpen
  inited   : t.inited = s.inited
  raw      : t.work.raw = s.work.raw
  acc      : t.work.acc = s.work.acc
  ksel     : t.work.ksel = s.work.ksel
  requests : t.requests = s.requests
  draws    : t.draws = s.draws
  codes    : t.codes = s.codes

/-- The lines between two operations after a write: strobe and clock high, the data line an output (R27, R78, R181). -/
def Pins.Released (p : Pins) : Prop := p.stb = true ∧ p.clk = true ∧ p.dioDir = .out

end Sys2Proof.Machine
end

