-- ==== Sys2Proof/Certificates/Slice0/Obligations.lean ====
section
/-! DEFINITION. The statements for the provers. Rules are those of spec/; every statement about a display operation asks the framing premise of R176 of its start state only where it says something about the chip. -/

open Sys2Proof Sys2Proof.Machine

/-! ## Reset, step, decoding -/

/-- R14, R22, R23: the Debounce State is zeroed (the model starts it so at reset, log 11), `txn_open` and `inited` are 0. -/
def Obligations.ResetLeavesZeroedDebounceAndClosedBus : Prop :=
  (∀ i : Fin 24, State.reset.debounce.cnt[i] = 0) ∧ State.reset.debounce.stable = 0 ∧
  State.reset.txnOpen = false ∧ State.reset.inited = false

/-- The invariant holds at reset (R16, R22, R30): among the rest, each of the 16 display registers holds a byte (log 13). -/
def Obligations.ResetMeetsInvariant : Prop := State.reset.Inv

/-- Every step keeps it, from every state: the Debounce State's invariant (R16, R141), clock high and strobe low exactly
in a frame while initialised (R22, R78), no frame outside the `init` to `deinit` window (R171), a byte in each of the 16
display registers and none at an address above 15 (R17, R40), the parameters `CMD_*` distinct (R57). -/
def Obligations.StepKeepsInvariant : Prop :=
  ∀ s t : State, s.Inv → step s = .next t → t.Inv

/-- R5, R12: a step runs the caller's next choice, and the queue is one shorter; a byte runs as the instruction it
decodes to under the parameters, a byte that is none reaches the chip as a frame of its own, and with no choice nothing
happens (log 1, 2, 5). -/
def Obligations.StepRunsTheCallersNextChoice : Prop :=
  (∀ s : State, s.requests = [] → step s = .next s) ∧
  (∀ (s : State) i rest, s.requests = .call i :: rest → step s = exec i { s with requests := rest }) ∧
  (∀ (s : State) b i rest bs, s.requests = .wire b :: rest → decode s.codes [b] = .ok (i, bs) →
    step s = exec i { s with requests := rest }) ∧
  (∀ (s : State) b rest e, s.requests = .wire b :: rest → decode s.codes [b] = .error e →
    step s = .next (State.chipFrame { s with requests := rest } b))

/-- A table word placed where a step fetches runs as the instruction the decoder reads from it, where the parameters are
the table's words (log 2, 4). -/
def Obligations.TableWordRunsAsDecoded : Prop :=
  ∀ (s : State) nbits w i, s.codes = CommandBytes.defaults → decodeTableWord nbits w = some i →
    step (s.withFetchWord nbits w) = exec i s

/-- R57: words written out from the bit patterns of the rule, under its default `CMD_*` values, which the spec asks no one
to hold (log 4). -/
def Obligations.InstructionBytesOfTheTableDecode : Prop :=
  ∀ k : CommandBytes, k = CommandBytes.defaults →
    decode k [0b01000000] = .ok (.cmdDataWriteAutoinc, []) ∧ decode k [0b01000100] = .ok (.cmdDataWriteFixed, []) ∧
    decode k [0b01000010] = .ok (.cmdDataReadKeys, []) ∧ decode k [0b10001011] = .ok (.cmdDisplay true 3, []) ∧
    decode k [0b10000111] = .ok (.cmdDisplay false 7, []) ∧ decode k [0b11000110] = .ok (.cmdAddr 6, []) ∧
    decode k [0b11001111] = .ok (.cmdAddr 15, []) ∧ decode k [0b00000000] = .error .noClass ∧
    decode k [0b01001000] = .error .noTableRow ∧ decode k [0b11010000] = .error .noClass

/-- Decoding the encoding of a well-formed instruction gives it back with the rest of the bytes, and a byte that decodes
is the encoding of what it decodes to: no bit of an instruction byte is dropped, whatever distinct bytes the parameters
are (R57, R64). -/
def Obligations.DecodeAndEncodeAgree : Prop :=
  ∀ k : CommandBytes, k.Ok →
    (∀ (i : Instr) bs rest, i.wf = true → encode k i = some bs → decode k (bs ++ rest) = .ok (i, rest)) ∧
    (∀ b i rest, decode k (b :: rest) = .ok (i, rest) → encode k i = some [b] ∧ i.wf = true)

/-- R57: "the three classes and all their members are distinct bytes": the premise the statements put on the parameters
says that two commands with one byte are one command, and the default bytes meet it. -/
def Obligations.CommandBytesAreDistinct : Prop :=
  CommandBytes.defaults.Ok ∧
  ∀ k : CommandBytes, k.Ok ↔ ∀ c d : Command, encodeCommand k c = encodeCommand k d → c = d

/-! ## When a call runs -/

/-- R152: a call whose preconditions hold answers a next state; a call that breaks one is refused. All 24 rows; that the
five instruction-byte rows have no precondition is the model's choice (log 5). -/
def Obligations.CallsRunExactlyWhenAllowed : Prop :=
  ∀ (i : Instr) (s : State),
    (Allowed i s → ∃ t, exec i s = .next t) ∧ (¬ Allowed i s → ∃ r, exec i s = .refused r)

/-- R152: each violation by its own name. -/
def Obligations.ViolationsAreRefusedByName : Prop :=
  (∀ s : State, s.inited = false →
    (∀ i, i = .startTransaction ∨ i = .endTransaction ∨ (∃ bs, i = .writeBytes bs) ∨ (∃ n, i = .readBytes n) ∨
      i = .deinit ∨ sendsOwnFrames i = true → exec i s = .refused .notInitialised)) ∧
  (∀ s : State, s.inited = true → exec .init s = .refused .alreadyInitialised) ∧
  (∀ s : State, s.inited = true → s.txnOpen = true →
    exec .deinit s = .refused .deinitInsideFrame ∧
    ∀ i, sendsOwnFrames i = true → exec i s = .refused .protocolInsideFrame) ∧
  (∀ s : State, s.inited = true → s.txnOpen = false →
    (∀ b on, 7 < b → exec (.configureDisplay b on) s = .refused .brightnessOutOfRange) ∧
    (∀ p pos, 7 < pos → exec (.setDigit p pos) s = .refused .positionOutOfRange ∧
      exec (.setDigitHex p pos) s = .refused .positionOutOfRange) ∧
    (∀ ps start n, ps.length < n → exec (.setDigits ps start n) s = .refused .listTooShort ∧
      exec (.setDigitsHex ps start n) s = .refused .listTooShort) ∧
    (∀ ps start n, n ≤ ps.length → 7 < start ∨ 8 < start + n →
      exec (.setDigits ps start n) s = .refused .positionOutOfRange ∧
      exec (.setDigitsHex ps start n) s = .refused .positionOutOfRange) ∧
    (∀ cs start n, cs.length < min n 8 → exec (.setDigitsChar cs start n) s = .refused .listTooShort) ∧
    (∀ cs start n, min n 8 ≤ cs.length → 7 < start ∨ 8 < start + min n 8 →
      exec (.setDigitsChar cs start n) s = .refused .positionOutOfRange))

/-- R150, R151, R152: a step succeeds unless the caller's next choice is a call that breaks a precondition: nothing else
stops the machine, no byte on the wire and no value of a register, of an argument or of an answer (log 1, 5). -/
def Obligations.EveryStepSucceedsOrIsAViolation : Prop :=
  ∀ s : State, (∃ t, step s = .next t) ∨
    ∃ i rest r, s.requests = .call i :: rest ∧ ¬ Allowed i { s with requests := rest } ∧ step s = .refused r

/-! ## Bus Transport -/

/-- R72: `startTransaction()` drives strobe low and opens the frame; nothing else at the pins moves. That the chip does not
change, while the framing premise holds, is the model's (log 17, 18). -/
def Obligations.StartTransactionOpensFrame : Prop :=
  ∀ s : State, s.inited = true → ∃ t, exec .startTransaction s = .next t ∧
    t.trace = s.trace ++ [.strobe false] ∧ t.pins = { s.pins with stb := false } ∧ t.txnOpen = true ∧
    t.ret = .none ∧ t.inited = true ∧ t.debounce = s.debounce ∧ t.work = s.work ∧ t.requests = s.requests ∧
    t.draws = s.draws ∧
    (s.framing = .idle → t.framing = .opened ∧ t.peer = s.peer)

/-- R73: `endTransaction()` drives strobe high and closes the frame. A completed frame reaches the chip, where the
parameters are distinct bytes: an instruction byte is obeyed, an address and a byte store the byte there (R47; outside
write mode log 21), and every other byte of the register file stays (log 17). The data mode selects "how following data
bytes are treated" (R56): in fixed-address mode the pointer stays where it was set, and in normal write mode more data
bytes of one frame are stored one after another, all at that register if the address is fixed (log 19, 22). After a key
scan the mode is the one its byte set (R121, log 17). -/
def Obligations.EndTransactionClosesFrame : Prop :=
  ∀ s : State, s.inited = true → ∃ t, exec .endTransaction s = .next t ∧
    t.trace = s.trace ++ [.strobe true] ∧ t.pins = { s.pins with stb := true } ∧ t.txnOpen = false ∧
    t.ret = .none ∧ t.inited = true ∧ t.debounce = s.debounce ∧ t.work = s.work ∧ t.requests = s.requests ∧
    t.draws = s.draws ∧
    (s.codes.Ok →
      (∀ tst adr acc, s.framing = .wrote [encodeCommand s.codes (.dataMode tst adr acc)] → t.framing = .idle ∧
        t.peer = { s.peer with mode := t.peer.mode } ∧ t.peer.mode.testing = tst ∧ t.peer.mode.addressing = adr ∧
        (acc = 0b00 → t.peer.mode.access = .write) ∧ (acc = 0b10 → t.peer.mode.access = .readKeys)) ∧
      (∀ on br, s.framing = .wrote [s.codes.display on br] →
        t.framing = .idle ∧ t.peer = { s.peer with dispOn := on, bright := br }) ∧
      (∀ a, s.framing = .wrote [s.codes.addr a] → t.framing = .idle ∧ t.peer = { s.peer with addrPtr := a }) ∧
      (∀ a v, s.framing = .wrote [s.codes.addr a, v] → t.framing = .idle ∧
        (∀ b, Memory.read t.peer.dr b = if b = a.toNat then some v else Memory.read s.peer.dr b) ∧
        (s.peer.mode.addressing = .fixed → t.peer.addrPtr = a) ∧
        t.peer.mode = s.peer.mode ∧ t.peer.dispOn = s.peer.dispOn ∧ t.peer.bright = s.peer.bright) ∧
      (∀ a vs v, vs ≠ [] → s.framing = .wrote (s.codes.addr a :: (vs ++ [v])) → s.peer.mode.access = .write →
        s.peer.mode.testing = .normal → t.framing = .idle ∧
        (∀ b, Memory.read t.peer.dr b = Memory.read s.peer.dr b ∨ ∃ w ∈ vs ++ [v], Memory.read t.peer.dr b = some w) ∧
        (s.peer.mode.addressing = .fixed → t.peer.addrPtr = a ∧
          ∀ b, Memory.read t.peer.dr b = if b = a.toNat then some v else Memory.read s.peer.dr b) ∧
        t.peer.mode = s.peer.mode ∧ t.peer.dispOn = s.peer.dispOn ∧ t.peer.bright = s.peer.bright) ∧
      (∀ tst adr, s.framing = .readBack [encodeCommand s.codes (.dataMode tst adr 0b10)] → t.framing = .idle ∧
        t.peer.mode = ⟨adr, tst, .readKeys⟩ ∧ t.peer.dr = s.peer.dr ∧ t.peer.dispOn = s.peer.dispOn ∧
        t.peer.bright = s.peer.bright ∧ (adr = .fixed → t.peer.addrPtr = s.peer.addrPtr)))

/-- R74: `writeBytes(bytes)`: `DO` once, then for each byte in list order, bit 0 first, the write bit cell; `1 + 40 n`
events; the data line ends as an output with the last bit on it and the clock high; the strobe is not looked at. That a write in
an open frame whose premise holds leaves the chip as it was until the frame ends is the model's (log 17, 18). -/
def Obligations.WriteBytesClocksOutLsbFirst : Prop :=
  ∀ (bytes : List Byte) (s : State), s.inited = true → ∃ t, exec (.writeBytes bytes) s = .next t ∧
    t.trace = s.trace ++ .dataOut :: bytes.flatMap (fun v => (List.range 8).flatMap fun j =>
      [.data (v.getLsbD j), .clock false, .delay Config.tHalf, .clock true, .delay Config.tHalf]) ∧
    t.trace.length = s.trace.length + (1 + 40 * bytes.length) ∧
    t.pins.stb = s.pins.stb ∧ t.pins.dioDir = .out ∧
    (bytes = [] → t.pins.clk = s.pins.clk ∧ t.pins.dioOut = s.pins.dioOut) ∧
    (∀ init v, bytes = init ++ [v] → t.pins.clk = true ∧ t.pins.dioOut = v.getLsbD 7) ∧
    t.ret = .none ∧ s.OnlyBus t ∧
    (s.framing = .opened → t.framing = .wrote bytes ∧ t.peer = s.peer)

/-- R75: `readBytes(count)`: `DI`, the settle delay of 5, then for each of `8 * count` samples the read bit cell; the
samples are the wire's answers (R6); byte `m` of the result has sample `8m + j` as its bit `j`; the data line stays an
input, the clock ends high, `dataWrite` is never called. That a read in its frame leaves the chip as it was until the frame
ends is the model's (log 17, 18). -/
def Obligations.ReadBytesAssemblesLsbFirst : Prop :=
  ∀ (count : Nat) (s : State), s.inited = true → ∃ (t : State) (bits : List Bool) (bs : List Byte),
    exec (.readBytes count) s = .next t ∧ bits = s.answers (8 * count) ∧
    t.trace = s.trace ++ .dataIn :: .delay 5 :: bits.flatMap (fun b =>
      [.clock false, .delay Config.tHalf, .clock true, .read b, .delay Config.tHalf]) ∧
    t.trace.length = s.trace.length + (2 + 40 * count) ∧
    t.ret = .bytes bs ∧ bs.length = count ∧
    (∀ m j, m < count → j < 8 → (bs.getD m 0).getLsbD j = bits.getD (8 * m + j) false) ∧
    t.pins.dioDir = .input ∧ t.pins.dioOut = s.pins.dioOut ∧ t.pins.stb = s.pins.stb ∧
    (count = 0 → t.pins.clk = s.pins.clk) ∧ (0 < count → t.pins.clk = true) ∧
    t.draws = s.draws.drop (8 * count) ∧ t.debounce = s.debounce ∧ t.inited = s.inited ∧ t.txnOpen = s.txnOpen ∧
    t.work.raw = s.work.raw ∧ t.work.acc = s.work.acc ∧ t.work.ksel = s.work.ksel ∧ t.requests = s.requests ∧
    (∀ sent, s.framing = .wrote sent → t.framing = .readBack sent ∧ t.peer = s.peer)

/-- R76, R27: `init()` calls `platformInit()` only; strobe and clock are high on return (the duty of D7, log 15); the
Debounce State is untouched, and so, since no frame is sent, is the chip (log 17). -/
def Obligations.InitCallsPlatformInit : Prop :=
  ∀ s : State, s.inited = false → ∃ t, exec .init s = .next t ∧
    t.trace = s.trace ++ [.platformInit] ∧ t.inited = true ∧ t.pins.stb = true ∧ t.pins.clk = true ∧
    t.ret = .none ∧ t.txnOpen = s.txnOpen ∧ t.debounce = s.debounce ∧ t.peer = s.peer ∧ t.work = s.work ∧
    t.framing = s.framing ∧ t.requests = s.requests ∧ t.draws = s.draws

/-- R77, R172: `deinit()` calls `platformDeinit()` only; the Debounce State is untouched, and so,
since no frame is sent, is the chip (log 17). -/
def Obligations.DeinitCallsPlatformDeinit : Prop :=
  ∀ s : State, s.inited = true → s.txnOpen = false → ∃ t, exec .deinit s = .next t ∧
    t.trace = s.trace ++ [.platformDeinit] ∧ t.inited = false ∧ t.ret = .none ∧ t.txnOpen = false ∧
    t.debounce = s.debounce ∧ t.peer = s.peer ∧ t.work = s.work ∧ t.framing = s.framing ∧
    t.requests = s.requests ∧ t.draws = s.draws

/-- R78: inside a `writeBytes` or `readBytes` the clock strictly alternates, `C0` first and `C1` last, 8 of each for a
byte, and a clock that was high is high on return. -/
def Obligations.ClockAlternatesInEveryByte : Prop :=
  (∀ (bytes : List Byte) (s t : State), exec (.writeBytes bytes) s = .next t → ∃ es, t.trace = s.trace ++ es ∧
    clockEdges es = (List.replicate (8 * bytes.length) [false, true]).flatten ∧
    (s.pins.clk = true → t.pins.clk = true)) ∧
  (∀ (count : Nat) (s t : State), exec (.readBytes count) s = .next t → ∃ es, t.trace = s.trace ++ es ∧
    clockEdges es = (List.replicate (8 * count) [false, true]).flatten ∧
    (s.pins.clk = true → t.pins.clk = true))

/-! ## Frames and the framing premise -/

/-- R33, R92: `F_WR(a, v)` is `startTransaction(); writeBytes([CMD_ADDR(a), v]); endTransaction()`, 83 events with the
direction set once, and its effect at a chip in write mode that reads the parameters as distinct bytes is `DR[a] <- v`. That
every other register, the mode, `DISP_ON` and `BRIGHT` stay is the model's (log 17): R38 and N13 name no side effect. -/
def Obligations.WriteFrameStoresOneRegister : Prop :=
  ∀ (s : State) (a : BitVec 4) (v : Byte), s.BusIdle → ∃ t₁ t₂ t,
    exec .startTransaction s = .next t₁ ∧ exec (.writeBytes [s.codes.addr a, v]) t₁ = .next t₂ ∧
    exec .endTransaction t₂ = .next t ∧
    t.trace = s.trace ++ ([.strobe false, .dataOut] ++ byteCells (s.codes.addr a) ++ byteCells v ++ [.strobe true]) ∧
    t.trace.length = s.trace.length + 83 ∧ t.BusIdle ∧ t.pins.Released ∧ s.OnlyBus t ∧
    (s.peer.mode.access = .write → s.codes.Ok →
      (∀ b, Memory.read t.peer.dr b = if b = a.toNat then some v else Memory.read s.peer.dr b) ∧
      t.peer.mode = s.peer.mode ∧ t.peer.dispOn = s.peer.dispOn ∧ t.peer.bright = s.peer.bright)

/-- R91, R47: `F_CMD(c)` is 43 events, and the chip obeys the byte, where the parameters are distinct bytes: a data-mode
byte sets the mode, a display-control byte `DISP_ON` and `BRIGHT`, an address byte the pointer; no display register
changes. That nothing else at the chip changes is the model's (log 17); access bits that name no access select a free one
(log 20). -/
def Obligations.CommandFrameIsObeyed : Prop :=
  ∀ (s : State) (c : Command), s.BusIdle → ∃ t₁ t₂ t,
    exec .startTransaction s = .next t₁ ∧ exec (.writeBytes [encodeCommand s.codes c]) t₁ = .next t₂ ∧
    exec .endTransaction t₂ = .next t ∧
    t.trace = s.trace ++ ([.strobe false, .dataOut] ++ byteCells (encodeCommand s.codes c) ++ [.strobe true]) ∧
    t.trace.length = s.trace.length + 43 ∧ t.BusIdle ∧ t.pins.Released ∧ s.OnlyBus t ∧
    (s.codes.Ok → t.peer.dr = s.peer.dr ∧ match c with
      | .dataMode tst adr acc =>
        t.peer = { s.peer with mode := t.peer.mode } ∧ t.peer.mode.testing = tst ∧ t.peer.mode.addressing = adr ∧
        (acc = 0b00 → t.peer.mode.access = .write) ∧ (acc = 0b10 → t.peer.mode.access = .readKeys)
      | .display on br => t.peer = { s.peer with dispOn := on, bright := br }
      | .addr a => t.peer = { s.peer with addrPtr := a })

/-- R176: the premise the model tracks is exactly the rule's: from an idle bus the transport operations end on an idle bus
if and only if they are complete frames, each one `startTransaction`, exactly one `writeBytes`, at most one `readBytes`,
one `endTransaction`. -/
def Obligations.FramingPremiseIsCompleteFrames : Prop :=
  ∀ acts : List BusAct, acts.foldl Framing.next .idle = .idle ↔
    ∃ frames : List (List Byte × Bool),
      acts = frames.flatMap fun f => [.start, .write f.1] ++ (if f.2 then [.read] else []) ++ [.stop]

/-- R152, R176: a transport operation that breaks the framing premise still emits its events, and nothing may be concluded
about the chip from then on: it holds free values (log 18). -/
def Obligations.MisuseEmitsAndLosesTheChip : Prop :=
  (∀ s : State, s.inited = true → s.framing ≠ .idle → ∃ t, exec .startTransaction s = .next t ∧
    t.trace = s.trace ++ [.strobe false] ∧ t.framing = .broken ∧ t.peer = Peer.unknown s.freeCount) ∧
  (∀ s : State, s.inited = true → s.framing = .idle ∨ s.framing = .opened → ∃ t, exec .endTransaction s = .next t ∧
    t.trace = s.trace ++ [.strobe true] ∧ t.framing = .broken ∧ t.peer = Peer.unknown s.freeCount) ∧
  (∀ (s : State) bytes, s.inited = true → s.framing ≠ .opened → ∃ t, exec (.writeBytes bytes) s = .next t ∧
    t.trace = s.trace ++ writeEvents bytes ∧ t.framing = .broken ∧ t.peer = Peer.unknown s.freeCount) ∧
  (∀ (s : State) count, s.inited = true → (∀ sent, s.framing ≠ .wrote sent) → ∃ t, exec (.readBytes count) s = .next t ∧
    t.trace = s.trace ++ readEvents (s.answers (8 * count)) ∧ t.framing = .broken ∧ ∃ n, t.peer = Peer.unknown n)

/-- A broken framing premise stays broken through every instruction (log 18). -/
def Obligations.BrokenFramingStaysBroken : Prop :=
  ∀ (i : Instr) (s t : State), s.framing = .broken → exec i s = .next t → t.framing = .broken

/-- R176: "Every operation of 41_register_protocol.md and `scanKeys` keeps this premise", and leaves the frame closed. -/
def Obligations.ProtocolOperationsKeepFraming : Prop :=
  ∀ (i : Instr) (s t : State), sendsOwnFrames i = true → s.BusIdle → exec i s = .next t → t.BusIdle

/-! ## Register Protocol -/

/-- R96: `setDigits`: the mode-select frame, then one frame `[CMD_ADDR(2*(startPosition+i)), patterns[i]]` for each `i`,
ascending; `43 + 83 * count` events; at the chip exactly those digit registers change, each to its pattern (R33), and the
mode-select byte sets auto-increment write (R93); that nothing else there changes is the model's (log 17). -/
def Obligations.SetDigitsWritesEachDigit : Prop :=
  ∀ (patterns : List Byte) (start count : Nat) (s : State), s.inited = true → s.txnOpen = false →
    count ≤ patterns.length → start ≤ 7 → start + count ≤ 8 → ∃ t, exec (.setDigits patterns start count) s = .next t ∧
    t.trace = s.trace ++ (frameEvents [s.codes.dataWriteAutoinc] ++ (List.range count).flatMap fun i =>
      frameEvents [s.codes.addr (BitVec.ofNat 4 (2 * (start + i))), patterns.getD i 0]) ∧
    t.trace.length = s.trace.length + (43 + 83 * count) ∧ t.ret = .none ∧ t.pins.Released ∧ s.OnlyBus t ∧
    (s.framing = .idle → s.codes.Ok → t.framing = .idle ∧ t.peer.mode = modeWriteAutoinc ∧ t.peer.dispOn = s.peer.dispOn ∧
      t.peer.bright = s.peer.bright ∧
      (∀ i < count, Memory.read t.peer.dr (2 * (start + i)) = patterns[i]?) ∧
      ∀ a, (∀ i < count, a ≠ 2 * (start + i)) → Memory.read t.peer.dr a = Memory.read s.peer.dr a)

/-- R95: `setDigit(pattern, position)` is `setDigits([pattern], position, 1)`: two frames, 126 events, the register
`2 * position`. That nothing else at the chip changes is the model's (log 17). -/
def Obligations.SetDigitWritesOneDigit : Prop :=
  ∀ (pattern : Byte) (position : Nat) (s : State), s.inited = true → s.txnOpen = false → position ≤ 7 →
    ∃ t, exec (.setDigit pattern position) s = .next t ∧ exec (.setDigits [pattern] position 1) s = .next t ∧
    t.trace = s.trace ++ (frameEvents [s.codes.dataWriteAutoinc] ++
      frameEvents [s.codes.addr (BitVec.ofNat 4 (2 * position)), pattern]) ∧
    t.trace.length = s.trace.length + 126 ∧ t.ret = .none ∧ t.pins.Released ∧ s.OnlyBus t ∧
    (s.framing = .idle → s.codes.Ok → t.framing = .idle ∧ t.peer.mode = modeWriteAutoinc ∧ t.peer.dispOn = s.peer.dispOn ∧
      t.peer.bright = s.peer.bright ∧
      ∀ a, Memory.read t.peer.dr a = if a = 2 * position then some pattern else Memory.read s.peer.dr a)

/-- R97: `setLeds`: the mode-select frame, then the frames `[CMD_ADDR(2*i+1), bit i]` for `i` = 0 to 7; 707 events; all
eight LED registers are written. That nothing else at the chip changes is the model's (log 17). -/
def Obligations.SetLedsWritesAllLeds : Prop :=
  ∀ (bitmask : Byte) (s : State), s.inited = true → s.txnOpen = false → ∃ t, exec (.setLeds bitmask) s = .next t ∧
    t.trace = s.trace ++ (frameEvents [s.codes.dataWriteAutoinc] ++ (List.range 8).flatMap fun i =>
      frameEvents [s.codes.addr (BitVec.ofNat 4 (2 * i + 1)), if bitmask.getLsbD i then 0x01 else 0x00]) ∧
    t.trace.length = s.trace.length + 707 ∧ t.ret = .none ∧ t.pins.Released ∧ s.OnlyBus t ∧
    (s.framing = .idle → s.codes.Ok → t.framing = .idle ∧ t.peer.mode = modeWriteAutoinc ∧ t.peer.dispOn = s.peer.dispOn ∧
      t.peer.bright = s.peer.bright ∧
      (∀ i < 8, Memory.read t.peer.dr (2 * i + 1) = some (if bitmask.getLsbD i then 0x01 else 0x00)) ∧
      ∀ a, (∀ i < 8, a ≠ 2 * i + 1) → Memory.read t.peer.dr a = Memory.read s.peer.dr a)

/-- R94, R103: `configureDisplay`: the control frame, then `setLeds(0x00)`, then `setDigits` of eight `BLANK`; 1457 events;
afterwards all 16 display registers hold 0x00 and `DISP_ON`, `BRIGHT` are the arguments, whatever the chip held, the chip being
the reference peer of R47 (log 17). -/
def Obligations.ConfigureDisplayBlanksEverything : Prop :=
  ∀ (brightness : Nat) (on : Bool) (s : State), s.inited = true → s.txnOpen = false → brightness ≤ 7 →
    ∃ t, exec (.configureDisplay brightness on) s = .next t ∧
    t.trace = s.trace ++ (frameEvents [s.codes.display on (BitVec.ofNat 3 brightness)] ++
      (frameEvents [s.codes.dataWriteAutoinc] ++ (List.range 8).flatMap fun i =>
        frameEvents [s.codes.addr (BitVec.ofNat 4 (2 * i + 1)), 0x00]) ++
      (frameEvents [s.codes.dataWriteAutoinc] ++ (List.range 8).flatMap fun i =>
        frameEvents [s.codes.addr (BitVec.ofNat 4 (2 * i)), 0x00])) ∧
    t.trace.length = s.trace.length + 1457 ∧ t.ret = .none ∧ t.pins.Released ∧ s.OnlyBus t ∧
    (s.framing = .idle → s.codes.Ok → t.framing = .idle ∧ t.peer.mode = modeWriteAutoinc ∧ t.peer.dispOn = on ∧
      t.peer.bright = BitVec.ofNat 3 brightness ∧
      (∀ a < 16, Memory.read t.peer.dr a = some 0x00) ∧
      ∀ a, 16 ≤ a → Memory.read t.peer.dr a = Memory.read s.peer.dr a)

/-- R103 (source example SRC-7): a second identical `configureDisplay` leaves every display register, `DISP_ON` and
`BRIGHT` as the first left them, the chip being the reference peer of R47 (log 17). -/
def Obligations.ConfigureDisplayIsIdempotent : Prop :=
  ∀ (brightness : Nat) (on : Bool) (s : State), s.BusIdle → brightness ≤ 7 → ∃ t u,
    exec (.configureDisplay brightness on) s = .next t ∧ exec (.configureDisplay brightness on) t = .next u ∧
    (s.codes.Ok → (∀ a, Memory.read u.peer.dr a = Memory.read t.peer.dr a) ∧ u.peer.dispOn = t.peer.dispOn ∧
      u.peer.bright = t.peer.bright ∧ u.peer.mode = t.peer.mode)

/-- R99, R100: the hex operations are the digit operations over `hexToPattern`, and run exactly as they do. -/
def Obligations.HexOperationsAreDigitOperations : Prop :=
  (∀ (value : Byte) position (s : State),
    exec (.setDigitHex value position) s = exec (.setDigit (hexPattern value) position) s) ∧
  (∀ (values : List Byte) start count (s : State),
    exec (.setDigitsHex values start count) s = exec (.setDigits (values.map hexPattern) start count) s) ∧
  (∀ (value : Byte) position (s : State), s.inited = true → s.txnOpen = false → position ≤ 7 →
    ∃ t, exec (.setDigitHex value position) s = .next t ∧
      t.trace = s.trace ++ (frameEvents [s.codes.dataWriteAutoinc] ++
        frameEvents [s.codes.addr (BitVec.ofNat 4 (2 * position)), hexPattern value])) ∧
  (∀ (values : List Byte) start count (s : State), s.inited = true → s.txnOpen = false → count ≤ values.length →
    start ≤ 7 → start + count ≤ 8 → ∃ t, exec (.setDigitsHex values start count) s = .next t ∧
      t.trace = s.trace ++ (frameEvents [s.codes.dataWriteAutoinc] ++ (List.range count).flatMap fun i =>
        frameEvents [s.codes.addr (BitVec.ofNat 4 (2 * (start + i))), hexPattern (values.getD i 0)]))

/-- R102: the character operation clamps its count to 8 and is then the digit operation over `charToPattern`. -/
def Obligations.CharOperationClampsThenWrites : Prop :=
  (∀ (chars : List Byte) start count (s : State),
    exec (.setDigitsChar chars start count) s = exec (.setDigits (chars.map charPattern) start (min count 8)) s) ∧
  (∀ (chars : List Byte) start count (s : State), s.inited = true → s.txnOpen = false → min count 8 ≤ chars.length →
    start ≤ 7 → start + min count 8 ≤ 8 → ∃ t, exec (.setDigitsChar chars start count) s = .next t ∧
      t.trace = s.trace ++ (frameEvents [s.codes.dataWriteAutoinc] ++ (List.range (min count 8)).flatMap fun i =>
        frameEvents [s.codes.addr (BitVec.ofNat 4 (2 * (start + i))), charPattern (chars.getD i 0)]))

/-- R98: `hexToPattern` returns the pattern of its branch, bit 7 of the input OR'd in, and changes nothing else. -/
def Obligations.HexToPatternTakesItsBranch : Prop :=
  ∀ (value : Byte) (s : State), ∃ p, exec (.hexToPattern value) s = .next { s with ret := .pattern p } ∧
    ∀ (v : BitVec 7) (dp : Byte), v = value.extractLsb' 0 7 → dp = value &&& 0x80 →
      (v.toNat ≤ 9 → p = seg (0x30 + v) ||| dp) ∧
      (10 ≤ v.toNat ∧ v.toNat ≤ 15 → p = seg (0x61 + (v - 10)) ||| dp) ∧
      (0x41 ≤ v.toNat ∧ v.toNat ≤ 0x46 → p = seg v ||| dp) ∧
      (0x61 ≤ v.toNat ∧ v.toNat ≤ 0x66 → p = seg v ||| dp) ∧
      (16 ≤ v.toNat ∧ v.toNat ≤ 0x40 ∨ 0x47 ≤ v.toNat ∧ v.toNat ≤ 0x60 ∨ 0x67 ≤ v.toNat → p = dp)

/-- R101: `charToPattern` is the table's pattern with bit 7 of the input OR'd in, 0x80 for an unsupported code, and
changes nothing else. -/
def Obligations.CharToPatternLooksUp : Prop :=
  ∀ (ch : Byte) (s : State), ∃ p, exec (.charToPattern ch) s = .next { s with ret := .pattern p } ∧
    p = seg (ch.extractLsb' 0 7) ||| (ch &&& 0x80) ∧
    (supportedCode (ch.extractLsb' 0 7) = false → p = 0x80)

/-- R98 (d), SRC-5: the decimal point of the input is bit 7 of the pattern, whichever branch is taken; in the character
path for every supported code. -/
def Obligations.DecimalPointIsPreserved : Prop :=
  (∀ value : Byte, (hexPattern value).getLsbD 7 = value.getLsbD 7) ∧
  (∀ ch : Byte, supportedCode (ch.extractLsb' 0 7) = true → (charPattern ch).getLsbD 7 = ch.getLsbD 7)

/-- R109, R110: the supported set is exactly the rule's; a supported code has bit 7 clear, space is blank, and every
other code is the sentinel. -/
def Obligations.SegmentTableSupportsExactlyTheSet : Prop :=
  (∀ c : BitVec 7, supportedCode c = true ↔
    (0x30 ≤ c.toNat ∧ c.toNat ≤ 0x39) ∨ (0x61 ≤ c.toNat ∧ c.toNat ≤ 0x7A) ∨ (0x41 ≤ c.toNat ∧ c.toNat ≤ 0x5A) ∨
    c.toNat ∈ [0x20, 0x2E, 0x2C, 0x3B, 0x3A, 0x3D, 0x2B, 0x2F, 0x5C, 0x21, 0x3F, 0x5F, 0x2D, 0x5E, 0x22, 0x27, 0x25,
      0x28, 0x29, 0x40, 0x2A, 0x23, 0x3C, 0x3E]) ∧
  (∀ c : BitVec 7, supportedCode c = true → (seg c).getLsbD 7 = false) ∧ seg 0x20 = 0x00 ∧
  (∀ c : BitVec 7, supportedCode c = false → seg c = 0b10000000)

/-- R111: `SEG(0x41 + k) = SEG(0x61 + k)` for `k` = 0 to 25. -/
def Obligations.SegmentTableMergesCase : Prop :=
  ∀ k : Nat, k ≤ 25 → seg (0x41 + BitVec.ofNat 7 k) = seg (0x61 + BitVec.ofNat 7 k)

/-- R112: over digits, lowercase letters, space and punctuation the table is one-to-one, and none of those 60 values is
the sentinel. -/
def Obligations.SegmentTableIsOneToOne : Prop :=
  (∀ c d : BitVec 7, supportedCode c = true → supportedCode d = true → isUpperCode c = false → isUpperCode d = false →
    seg c = seg d → c = d) ∧
  (∀ c : BitVec 7, supportedCode c = true → isUpperCode c = false → seg c ≠ 0x80)

/-! ## Key scan -/

/-- R122, R126: `decodeKeys` answers for any four bytes, with the mask of the reorder in the order `NIBBLE_FIRST` says,
and makes no bus call. -/
def Obligations.DecodeKeysIsTotalAndPure : Prop :=
  ∀ (raw : Vector Byte 4) (s : State), ∃ t, exec (.decodeKeys raw) s = .next t ∧
    t.ret = .mask (decodeKeysWith Config.nibbleFirst raw) ∧
    t = { s with ret := t.ret, work := { s.work with acc := t.work.acc, ksel := t.work.ksel } }

/-- R123: raw byte `i`, nibble `nib` (0 low, 1 high), key line `k` lands at the rule's mask bit, for both settings of
`NIBBLE_FIRST`; and the map is a bijection onto the 24 mask bits. -/
def Obligations.ReorderHasItsClosedForm : Prop :=
  (∀ (raw : Vector Byte 4) (i : Fin 4) (nib k : Nat), nib < 2 → k < 3 →
    (decodeKeysWith .low raw).getLsbD (8 * (2 - k) + 2 * i + (1 - nib)) = raw[i].getLsbD (4 * nib + k) ∧
    (decodeKeysWith .high raw).getLsbD (8 * (2 - k) + 2 * i + nib) = raw[i].getLsbD (4 * nib + k)) ∧
  (∀ j < 24, (∃ i < 4, ∃ nib < 2, ∃ k < 3, 8 * (2 - k) + 2 * i + (1 - nib) = j) ∧
    ∃ i < 4, ∃ nib < 2, ∃ k < 3, 8 * (2 - k) + 2 * i + nib = j) ∧
  (∀ i < 4, ∀ nib < 2, ∀ k < 3, ∀ i' < 4, ∀ nib' < 2, ∀ k' < 3,
    8 * (2 - k) + 2 * i + nib = 8 * (2 - k') + 2 * i' + nib' → i = i' ∧ nib = nib' ∧ k = k')

/-- R125: raw bits 3 and 7 do not reach the mask, and mask bits 31:24 are 0. -/
def Obligations.IgnoredRawBitsDoNotReachTheMask : Prop :=
  ∀ (nf : NibbleFirst) (raw raw' : Vector Byte 4),
    (∀ i : Fin 4, ∀ j < 8, j ≠ 3 → j ≠ 7 → raw[i].getLsbD j = raw'[i].getLsbD j) →
    decodeKeysWith nf raw = decodeKeysWith nf raw' ∧
    ∀ j, 24 ≤ j → (decodeKeysWith nf raw).getLsbD j = false

/-- R121: `scanKeys`: `S0`, `DO` and the read-key-scan byte, `DI`, the settle delay, 32 read cells, `S1`; 205 events and 32
samples in one frame; the result is the reorder of the four bytes assembled from them; the data line is left an
input; the Debounce State is untouched. That the display registers, `DISP_ON` and `BRIGHT` are too, and the mode the one
the byte set, is the model's (log 17): R35 says the source is silent on what a read changes. -/
def Obligations.ScanKeysReadsOneFrame : Prop :=
  ∀ s : State, s.inited = true → s.txnOpen = false → ∃ (t : State) (bits : List Bool) (raw : Vector Byte 4),
    exec .scanKeys s = .next t ∧ bits.length = 32 ∧ (32 ≤ s.draws.length → bits = s.draws.take 32) ∧
    t.trace = s.trace ++ (.strobe false :: .dataOut :: byteCells s.codes.dataReadKeys ++ .dataIn :: .delay 5 ::
      bits.flatMap (fun b => [.clock false, .delay Config.tHalf, .clock true, .read b, .delay Config.tHalf]) ++
      [.strobe true]) ∧
    t.trace.length = s.trace.length + 205 ∧
    (∀ (m : Fin 4) j, j < 8 → raw[m].getLsbD j = bits.getD (8 * m + j) false) ∧
    t.ret = .mask (decodeKeysWith Config.nibbleFirst raw) ∧ t.work.raw = raw ∧
    t.pins.stb = true ∧ t.pins.clk = true ∧ t.pins.dioDir = .input ∧ t.draws = s.draws.drop 32 ∧
    t.debounce = s.debounce ∧ t.inited = true ∧ t.txnOpen = false ∧ t.requests = s.requests ∧
    (s.framing = .idle → s.codes.Ok → t.framing = .idle ∧ t.peer.dr = s.peer.dr ∧ t.peer.dispOn = s.peer.dispOn ∧
      t.peer.bright = s.peer.bright ∧ t.peer.mode = modeReadKeys)

/-- PROG-4 of 95_test_vectors.md, R121: a key scan made of transport operations and `decodeKeys` leaves the same trace, the
same mask and the same state as `scanKeys`, but for the register `RAW` that only `scanKeys` writes. -/
def Obligations.ScanKeysIsItsTransportSequence : Prop :=
  ∀ s : State, s.inited = true → s.txnOpen = false → ∃ t₁ t₂ t₃ t₄ t u bs raw,
    exec .startTransaction s = .next t₁ ∧ exec (.writeBytes [s.codes.dataReadKeys]) t₁ = .next t₂ ∧
    exec (.readBytes 4) t₂ = .next t₃ ∧ t₃.ret = .bytes bs ∧ raw.toList = bs ∧
    exec .endTransaction t₃ = .next t₄ ∧ exec (.decodeKeys raw) t₄ = .next t ∧
    exec .scanKeys s = .next u ∧ u = { t with work := { t.work with raw := raw } }

/-! ## Debounce -/

/-- R136: `debounceInit()` zeroes every counter and the stable mask and changes nothing else. -/
def Obligations.DebounceInitZeroes : Prop :=
  ∀ s : State, ∃ t, exec .debounceInit s = .next t ∧ (∀ i : Fin 24, t.debounce.cnt[i] = 0) ∧ t.debounce.stable = 0 ∧
    t = { s with debounce := t.debounce, ret := .none }

/-- R137, R141: `debounceUpdate(rawMask)`: for every key the counter moves by the sample and saturates, then the stable bit
is set at `MAX` after a pressed sample, cleared at 0 after a released one, and otherwise kept; bits 31:24 of the stable
mask are not written; the result is the updated stable mask; nothing else changes. -/
def Obligations.DebounceUpdateCountsThenDecides : Prop :=
  ∀ (rawMask : Mask) (s : State), ∃ t, exec (.debounceUpdate rawMask) s = .next t ∧
    (∀ i : Fin 24,
      (rawMask.getLsbD i = true →
        (s.debounce.cnt[i].toNat < 4 → t.debounce.cnt[i].toNat = s.debounce.cnt[i].toNat + 1) ∧
        (4 ≤ s.debounce.cnt[i].toNat → t.debounce.cnt[i] = s.debounce.cnt[i]) ∧
        (t.debounce.cnt[i] = 4 → t.debounce.stable.getLsbD i = true) ∧
        (t.debounce.cnt[i] ≠ 4 → t.debounce.stable.getLsbD i = s.debounce.stable.getLsbD i)) ∧
      (rawMask.getLsbD i = false →
        (0 < s.debounce.cnt[i].toNat → t.debounce.cnt[i].toNat = s.debounce.cnt[i].toNat - 1) ∧
        (s.debounce.cnt[i].toNat = 0 → t.debounce.cnt[i] = s.debounce.cnt[i]) ∧
        (t.debounce.cnt[i] = 0 → t.debounce.stable.getLsbD i = false) ∧
        (t.debounce.cnt[i] ≠ 0 → t.debounce.stable.getLsbD i = s.debounce.stable.getLsbD i))) ∧
    (∀ i, 24 ≤ i → t.debounce.stable.getLsbD i = s.debounce.stable.getLsbD i) ∧
    t.ret = .mask t.debounce.stable ∧ t = { s with debounce := t.debounce, ret := t.ret }

/-- R138: the transition table of one key, its 8 reachable states and the two samples of each, in rows
(count, stable, next on 1, next on 0). -/
def Obligations.DebounceFollowsItsTransitionTable : Prop :=
  ∀ row ∈ ([((0, false), (1, false), (0, false)), ((1, false), (2, false), (0, false)),
      ((2, false), (3, false), (1, false)), ((3, false), (4, true), (2, false)),
      ((4, true), (4, true), (3, true)), ((3, true), (4, true), (2, true)),
      ((2, true), (3, true), (1, true)), ((1, true), (2, true), (0, false))] :
      List ((BitVec 3 × Bool) × (BitVec 3 × Bool) × (BitVec 3 × Bool))),
    ∀ (rawMask : Mask) (s t : State) (i : Fin 24), (s.debounce.cnt[i], s.debounce.stable.getLsbD i) = row.1 →
      exec (.debounceUpdate rawMask) s = .next t →
      (t.debounce.cnt[i], t.debounce.stable.getLsbD i) = if rawMask.getLsbD i then row.2.1 else row.2.2

/-- R139: a key held pressed for at least `MAX` = 4 samples in a row is stable pressed with its counter at `MAX`, held
released for as many it is stable released with its counter at 0, from every state that meets the invariant; and from a
saturated state fewer samples do not flip it. -/
def Obligations.DebounceSettlesAfterMaxSamples : Prop :=
  ∀ (d : Debounce) (i : Fin 24) (samples : List Mask) (pressed : Bool), d.Ok →
    (∀ m ∈ samples, m.getLsbD i = pressed) →
    (4 ≤ samples.length →
      (samples.foldl Debounce.update d).cnt[i] = (if pressed then 4 else 0) ∧
      (samples.foldl Debounce.update d).stable.getLsbD i = pressed) ∧
    (samples.length < 4 → d.cnt[i] = (if pressed then 0 else 4) →
      (samples.foldl Debounce.update d).stable.getLsbD i = !pressed)

/-- R135: what happens to a key depends only on its own counter, its own stable bit and its own bit of the mask. -/
def Obligations.DebounceKeysAreIndependent : Prop :=
  ∀ (m m' : Mask) (s s' t t' : State) (i : Fin 24), m.getLsbD i = m'.getLsbD i →
    s.debounce.cnt[i] = s'.debounce.cnt[i] → s.debounce.stable.getLsbD i = s'.debounce.stable.getLsbD i →
    exec (.debounceUpdate m) s = .next t → exec (.debounceUpdate m') s' = .next t' →
    t.debounce.cnt[i] = t'.debounce.cnt[i] ∧ t.debounce.stable.getLsbD i = t'.debounce.stable.getLsbD i

/-- R139: "`stable[i]` becomes 1 at the first update after which `cnt[i] = MAX`, and 0 at the first after which
`cnt[i] = 0`": a stable bit changes only with its counter at an end, and then to that end's value. -/
def Obligations.StableBitChangesOnlyAtTheEnds : Prop :=
  ∀ (rawMask : Mask) (s t : State) (i : Fin 24), s.debounce.Ok → exec (.debounceUpdate rawMask) s = .next t →
    (t.debounce.stable.getLsbD i = true ∧ s.debounce.stable.getLsbD i = false →
      s.debounce.cnt[i] = 3 ∧ t.debounce.cnt[i] = 4 ∧ rawMask.getLsbD i = true) ∧
    (t.debounce.stable.getLsbD i = false ∧ s.debounce.stable.getLsbD i = true →
      s.debounce.cnt[i] = 1 ∧ t.debounce.cnt[i] = 0 ∧ rawMask.getLsbD i = false)

/-! ## The chip's instruction bytes -/

/-- R18, R19, R20, R56, R57: what each instruction byte selects at the chip, where the parameters are distinct bytes and no
frame of the block is open. That the chip's other registers stay is the model's (log 17). While a frame is open, or after
the framing premise was broken, nothing may be concluded about the chip (R152; in an open frame the model's choice,
log 5). -/
def Obligations.InstructionBytesSelectAtTheChip : Prop :=
  (∀ s : State, s.framing = .idle → s.codes.Ok →
    (∃ t, exec .cmdDataWriteAutoinc s = .next t ∧
      t = { s with peer := { s.peer with mode := ⟨.autoInc, .normal, .write⟩ }, freeCount := t.freeCount }) ∧
    (∃ t, exec .cmdDataWriteFixed s = .next t ∧
      t = { s with peer := { s.peer with mode := ⟨.fixed, .normal, .write⟩ }, freeCount := t.freeCount }) ∧
    (∃ t, exec .cmdDataReadKeys s = .next t ∧
      t = { s with peer := { s.peer with mode := ⟨.autoInc, .normal, .readKeys⟩ }, freeCount := t.freeCount }) ∧
    (∀ on br, ∃ t, exec (.cmdDisplay on br) s = .next t ∧
      t = { s with peer := { s.peer with dispOn := on, bright := br }, freeCount := t.freeCount }) ∧
    (∀ a, ∃ t, exec (.cmdAddr a) s = .next t ∧
      t = { s with peer := { s.peer with addrPtr := a }, freeCount := t.freeCount })) ∧
  (∀ (s : State) (i : Instr), s.framing ≠ .idle → i.command.isSome = true → ∃ t, exec i s = .next t ∧
    t = { s with framing := .broken, peer := Peer.unknown (s.freeCount + 2), freeCount := t.freeCount })

/-- Every byte that reaches the chip with no frame of the block open, whether a row of the table stands for it or not: the
chip obeys it where it reads as a command of the three classes (R47, R56, R57), test modes and a fixed-address key scan
among them; where it does not, nothing is known of the chip afterwards (log 19). Nothing of the block changes. That the
chip is the reference peer of R47 and its other registers stay is the model's (log 17), and so is its being the executor
(log 5). -/
def Obligations.EveryByteReachesTheChip : Prop :=
  ∀ (s : State) b rest, s.requests = .wire b :: rest → s.framing = .idle → s.codes.Ok → ∃ t, step s = .next t ∧
    t = { s with requests := rest, peer := t.peer, freeCount := t.freeCount } ∧
    (∀ tst adr acc, b = encodeCommand s.codes (.dataMode tst adr acc) →
      t.peer = { s.peer with mode := t.peer.mode } ∧ t.peer.mode.testing = tst ∧ t.peer.mode.addressing = adr ∧
      (acc = 0b00 → t.peer.mode.access = .write) ∧ (acc = 0b10 → t.peer.mode.access = .readKeys)) ∧
    (∀ on br, b = s.codes.display on br → t.peer = { s.peer with dispOn := on, bright := br }) ∧
    (∀ a, b = s.codes.addr a → t.peer = { s.peer with addrPtr := a }) ∧
    ((∀ c, b ≠ encodeCommand s.codes c) → ∃ n, t.peer = Peer.unknown n)

/-! ## Rules about the whole machine -/

/-- R14, R15: only `debounceInit` and `debounceUpdate` write the Debounce State. -/
def Obligations.OnlyDebounceOperationsWriteTheDebounceState : Prop :=
  ∀ (i : Instr) (s t : State), exec i s = .next t → i ≠ .debounceInit → (∀ m, i ≠ .debounceUpdate m) →
    t.debounce = s.debounce

/-- R22, R23: `inited` is written by `init` and `deinit` only; `txn_open` ends 1 only after `startTransaction`, or where no
operation of frames ran. -/
def Obligations.GhostBitsHaveTheirWriters : Prop :=
  ∀ (i : Instr) (s t : State), exec i s = .next t →
    (i ≠ .init → i ≠ .deinit → t.inited = s.inited) ∧
    (i ≠ .startTransaction → i ≠ .endTransaction → sendsOwnFrames i = false → t.txnOpen = s.txnOpen) ∧
    (sendsOwnFrames i = true → t.txnOpen = s.txnOpen)

/-- R42, R161, R174: a step only appends to the trace, and every delay it makes is `T_HALF` or `T_SETTLE`. -/
def Obligations.TraceGrowsWithTheTwoDelaysOnly : Prop :=
  ∀ s t : State, step s = .next t → ∃ es, t.trace = s.trace ++ es ∧
    ∀ n, Event.delay n ∈ es → n = Config.tHalf ∨ n = 5

/-- R173: wherever a step turns the data line to an input, the settle delay follows at once: it is 5 microseconds, and at
least 2. -/
def Obligations.SettleDelayFollowsEveryTurnToInput : Prop :=
  2 ≤ Config.tSettle ∧ Config.tSettle = 5 ∧ ∀ s t : State, step s = .next t → ∃ es, t.trace = s.trace ++ es ∧
    ∀ before after, es = before ++ .dataIn :: after → ∃ rest, after = .delay Config.tSettle :: rest

/-- R26, R32: the block never looks at the chip's registers: with any other chip behind the wires an instruction runs as
before and leaves everything but the chip the same. -/
def Obligations.ChipRegistersNeverReachTheBlock : Prop :=
  ∀ (i : Instr) (s t : State) (p : Peer), exec i s = .next t →
    ∃ t', exec i { s with peer := p } = .next t' ∧ t = { t' with peer := t.peer }

/-- R7, R26: the trace is "an output the model records and never reads": from another trace an instruction appends the
same events and leaves everything else the same. -/
def Obligations.TraceIsNeverRead : Prop :=
  ∀ (i : Instr) (s t : State) (past : List Event), exec i s = .next t → ∃ es, t.trace = s.trace ++ es ∧
    exec i { s with trace := past } = .next { t with trace := past ++ es }

/-- R35, R75: the wire's answers reach only `readBytes` and `scanKeys`: any other instruction runs the same whatever the
wire would answer, and takes none of it. -/
def Obligations.AnswersReachOnlyTheReads : Prop :=
  ∀ (i : Instr) (s t : State) (answers : List Bool), i ≠ .scanKeys → (∀ n, i ≠ .readBytes n) →
    exec i s = .next t → exec i { s with draws := answers } = .next { t with draws := answers }

/-- R184: the lower bounds on busy-wait time, from the delay events of each operation. -/
def Obligations.BusyWaitBounds : Prop :=
  ∀ (i : Instr) (s t : State), exec i s = .next t → ∃ es, t.trace = s.trace ++ es ∧
    (∀ bs, i = .writeBytes bs → busyTime es = 16 * bs.length * Config.tHalf) ∧
    (∀ n, i = .readBytes n → busyTime es = 5 + 16 * n * Config.tHalf) ∧
    (i = .scanKeys → busyTime es = 80 * Config.tHalf + 5) ∧
    (∀ p pos, i = .setDigit p pos → busyTime es = 48 * Config.tHalf) ∧
    (∀ ps start n, i = .setDigits ps start n → busyTime es = (16 + 32 * n) * Config.tHalf) ∧
    (∀ m, i = .setLeds m → busyTime es = 272 * Config.tHalf) ∧
    (∀ b on, i = .configureDisplay b on → busyTime es = 560 * Config.tHalf) ∧
    (i = .debounceInit ∨ (∃ m, i = .debounceUpdate m) ∨ (∃ raw, i = .decodeKeys raw) → busyTime es = 0)

/-- R36, R53, R54: what an observer on the three wires reads off the bit cells is exactly the bytes written, frame by
frame, for any sequence of frames; and for `setDigits`, `setLeds` and `configureDisplay` it is the frame list of their
rules (R94, R96, R97). -/
def Obligations.WiresCarryExactlyTheFrames : Prop :=
  (∀ frames : List (List Byte), framesSeen (frames.flatMap frameEvents) = frames) ∧
  (∀ (ps : List Byte) start n (s t : State), exec (.setDigits ps start n) s = .next t → ∃ es, t.trace = s.trace ++ es ∧
    framesSeen es = [s.codes.dataWriteAutoinc] :: (List.range n).map fun i =>
      [s.codes.addr (BitVec.ofNat 4 (2 * (start + i))), ps.getD i 0]) ∧
  (∀ m (s t : State), exec (.setLeds m) s = .next t → ∃ es, t.trace = s.trace ++ es ∧
    framesSeen es = [s.codes.dataWriteAutoinc] :: (List.range 8).map fun i =>
      [s.codes.addr (BitVec.ofNat 4 (2 * i + 1)), if m.getLsbD i then 0x01 else 0x00]) ∧
  (∀ b on (s t : State), exec (.configureDisplay b on) s = .next t → ∃ es, t.trace = s.trace ++ es ∧
    framesSeen es = [s.codes.display on (BitVec.ofNat 3 b)] ::
      ([s.codes.dataWriteAutoinc] :: (List.range 8).map fun i => [s.codes.addr (BitVec.ofNat 4 (2 * i + 1)), 0x00]) ++
      ([s.codes.dataWriteAutoinc] :: (List.range 8).map fun i => [s.codes.addr (BitVec.ofNat 4 (2 * i)), 0x00]))

/-- R8, R25: the parameters `CMD_*` are constants: no step writes them. -/
def Obligations.CommandBytesAreNeverWritten : Prop := ∀ s t : State, step s = .next t → t.codes = s.codes
end

