-- ==== Sys2Proof/Laws/State.lean ====
section
/-! SUPPORT. One lemma per field per update of State, each true by rfl, so that no proof unfolds a record update. -/

namespace Sys2Proof.Machine

@[simp] theorem State.emit_pins (s : State) (es : List Event) : (s.emit es).pins = es.foldl Pins.apply s.pins := rfl
@[simp] theorem State.emit_txnOpen (s : State) (es : List Event) : (s.emit es).txnOpen = s.txnOpen := rfl
@[simp] theorem State.emit_inited (s : State) (es : List Event) : (s.emit es).inited = s.inited := rfl
@[simp] theorem State.emit_debounce (s : State) (es : List Event) : (s.emit es).debounce = s.debounce := rfl
@[simp] theorem State.emit_work (s : State) (es : List Event) : (s.emit es).work = s.work := rfl
@[simp] theorem State.emit_peer (s : State) (es : List Event) : (s.emit es).peer = s.peer := rfl
@[simp] theorem State.emit_trace (s : State) (es : List Event) : (s.emit es).trace = s.trace ++ es := rfl
@[simp] theorem State.emit_ret (s : State) (es : List Event) : (s.emit es).ret = s.ret := rfl
@[simp] theorem State.emit_framing (s : State) (es : List Event) : (s.emit es).framing = s.framing := rfl
@[simp] theorem State.emit_requests (s : State) (es : List Event) : (s.emit es).requests = s.requests := rfl
@[simp] theorem State.emit_draws (s : State) (es : List Event) : (s.emit es).draws = s.draws := rfl
@[simp] theorem State.emit_freeCount (s : State) (es : List Event) : (s.emit es).freeCount = s.freeCount := rfl
@[simp] theorem State.emit_codes (s : State) (es : List Event) : (s.emit es).codes = s.codes := rfl

@[simp] theorem State.withRet_pins (s : State) (r : Ret) : (s.withRet r).pins = s.pins := rfl
@[simp] theorem State.withRet_txnOpen (s : State) (r : Ret) : (s.withRet r).txnOpen = s.txnOpen := rfl
@[simp] theorem State.withRet_inited (s : State) (r : Ret) : (s.withRet r).inited = s.inited := rfl
@[simp] theorem State.withRet_debounce (s : State) (r : Ret) : (s.withRet r).debounce = s.debounce := rfl
@[simp] theorem State.withRet_work (s : State) (r : Ret) : (s.withRet r).work = s.work := rfl
@[simp] theorem State.withRet_peer (s : State) (r : Ret) : (s.withRet r).peer = s.peer := rfl
@[simp] theorem State.withRet_trace (s : State) (r : Ret) : (s.withRet r).trace = s.trace := rfl
@[simp] theorem State.withRet_ret (s : State) (r : Ret) : (s.withRet r).ret = r := rfl
@[simp] theorem State.withRet_framing (s : State) (r : Ret) : (s.withRet r).framing = s.framing := rfl
@[simp] theorem State.withRet_requests (s : State) (r : Ret) : (s.withRet r).requests = s.requests := rfl
@[simp] theorem State.withRet_draws (s : State) (r : Ret) : (s.withRet r).draws = s.draws := rfl
@[simp] theorem State.withRet_freeCount (s : State) (r : Ret) : (s.withRet r).freeCount = s.freeCount := rfl
@[simp] theorem State.withRet_codes (s : State) (r : Ret) : (s.withRet r).codes = s.codes := rfl

@[simp] theorem State.dropAnswers_pins (s : State) (n : Nat) : (s.dropAnswers n).pins = s.pins := rfl
@[simp] theorem State.dropAnswers_txnOpen (s : State) (n : Nat) : (s.dropAnswers n).txnOpen = s.txnOpen := rfl
@[simp] theorem State.dropAnswers_inited (s : State) (n : Nat) : (s.dropAnswers n).inited = s.inited := rfl
@[simp] theorem State.dropAnswers_debounce (s : State) (n : Nat) : (s.dropAnswers n).debounce = s.debounce := rfl
@[simp] theorem State.dropAnswers_work (s : State) (n : Nat) : (s.dropAnswers n).work = s.work := rfl
@[simp] theorem State.dropAnswers_peer (s : State) (n : Nat) : (s.dropAnswers n).peer = s.peer := rfl
@[simp] theorem State.dropAnswers_trace (s : State) (n : Nat) : (s.dropAnswers n).trace = s.trace := rfl
@[simp] theorem State.dropAnswers_ret (s : State) (n : Nat) : (s.dropAnswers n).ret = s.ret := rfl
@[simp] theorem State.dropAnswers_framing (s : State) (n : Nat) : (s.dropAnswers n).framing = s.framing := rfl
@[simp] theorem State.dropAnswers_requests (s : State) (n : Nat) : (s.dropAnswers n).requests = s.requests := rfl
@[simp] theorem State.dropAnswers_draws (s : State) (n : Nat) : (s.dropAnswers n).draws = s.draws.drop n := rfl
@[simp] theorem State.dropAnswers_freeCount (s : State) (n : Nat) : (s.dropAnswers n).freeCount = s.freeCount + (n - s.draws.length) := rfl
@[simp] theorem State.dropAnswers_codes (s : State) (n : Nat) : (s.dropAnswers n).codes = s.codes := rfl

@[simp] theorem State.frameAct_pins (s : State) (act : BusAct) : (s.frameAct act).pins = s.pins := rfl
@[simp] theorem State.frameAct_txnOpen (s : State) (act : BusAct) : (s.frameAct act).txnOpen = s.txnOpen := rfl
@[simp] theorem State.frameAct_inited (s : State) (act : BusAct) : (s.frameAct act).inited = s.inited := rfl
@[simp] theorem State.frameAct_debounce (s : State) (act : BusAct) : (s.frameAct act).debounce = s.debounce := rfl
@[simp] theorem State.frameAct_work (s : State) (act : BusAct) : (s.frameAct act).work = s.work := rfl
@[simp] theorem State.frameAct_peer (s : State) (act : BusAct) : (s.frameAct act).peer = s.peer.after s.codes s.freeCount s.framing act := rfl
@[simp] theorem State.frameAct_trace (s : State) (act : BusAct) : (s.frameAct act).trace = s.trace := rfl
@[simp] theorem State.frameAct_ret (s : State) (act : BusAct) : (s.frameAct act).ret = s.ret := rfl
@[simp] theorem State.frameAct_framing (s : State) (act : BusAct) : (s.frameAct act).framing = s.framing.next act := rfl
@[simp] theorem State.frameAct_requests (s : State) (act : BusAct) : (s.frameAct act).requests = s.requests := rfl
@[simp] theorem State.frameAct_draws (s : State) (act : BusAct) : (s.frameAct act).draws = s.draws := rfl
@[simp] theorem State.frameAct_freeCount (s : State) (act : BusAct) : (s.frameAct act).freeCount = s.freeCount + 1 := rfl
@[simp] theorem State.frameAct_codes (s : State) (act : BusAct) : (s.frameAct act).codes = s.codes := rfl

@[simp] theorem State.chipFrame_pins (s : State) (b : Byte) : (s.chipFrame b).pins = s.pins := rfl
@[simp] theorem State.chipFrame_txnOpen (s : State) (b : Byte) : (s.chipFrame b).txnOpen = s.txnOpen := rfl
@[simp] theorem State.chipFrame_inited (s : State) (b : Byte) : (s.chipFrame b).inited = s.inited := rfl
@[simp] theorem State.chipFrame_debounce (s : State) (b : Byte) : (s.chipFrame b).debounce = s.debounce := rfl
@[simp] theorem State.chipFrame_work (s : State) (b : Byte) : (s.chipFrame b).work = s.work := rfl
@[simp] theorem State.chipFrame_trace (s : State) (b : Byte) : (s.chipFrame b).trace = s.trace := rfl
@[simp] theorem State.chipFrame_ret (s : State) (b : Byte) : (s.chipFrame b).ret = s.ret := rfl
@[simp] theorem State.chipFrame_requests (s : State) (b : Byte) : (s.chipFrame b).requests = s.requests := rfl
@[simp] theorem State.chipFrame_draws (s : State) (b : Byte) : (s.chipFrame b).draws = s.draws := rfl
@[simp] theorem State.chipFrame_freeCount (s : State) (b : Byte) : (s.chipFrame b).freeCount = s.freeCount + 3 := rfl
@[simp] theorem State.chipFrame_codes (s : State) (b : Byte) : (s.chipFrame b).codes = s.codes := rfl
@[simp] theorem State.chipFrame_framing (s : State) (b : Byte) : (s.chipFrame b).framing = ((s.framing.next .start).next (.write [b])).next .stop := rfl

@[simp] theorem State.startTxn_pins (s : State) : (s.startTxn).pins = { s.pins with stb := false } := rfl
@[simp] theorem State.startTxn_txnOpen (s : State) : (s.startTxn).txnOpen = true := rfl
@[simp] theorem State.startTxn_inited (s : State) : (s.startTxn).inited = s.inited := rfl
@[simp] theorem State.startTxn_debounce (s : State) : (s.startTxn).debounce = s.debounce := rfl
@[simp] theorem State.startTxn_work (s : State) : (s.startTxn).work = s.work := rfl
@[simp] theorem State.startTxn_peer (s : State) : (s.startTxn).peer = s.peer.after s.codes s.freeCount s.framing .start := rfl
@[simp] theorem State.startTxn_trace (s : State) : (s.startTxn).trace = s.trace ++ [.strobe false] := rfl
@[simp] theorem State.startTxn_ret (s : State) : (s.startTxn).ret = s.ret := rfl
@[simp] theorem State.startTxn_framing (s : State) : (s.startTxn).framing = s.framing.next .start := rfl
@[simp] theorem State.startTxn_requests (s : State) : (s.startTxn).requests = s.requests := rfl
@[simp] theorem State.startTxn_draws (s : State) : (s.startTxn).draws = s.draws := rfl
@[simp] theorem State.startTxn_freeCount (s : State) : (s.startTxn).freeCount = s.freeCount + 1 := rfl
@[simp] theorem State.startTxn_codes (s : State) : (s.startTxn).codes = s.codes := rfl

@[simp] theorem State.endTxn_pins (s : State) : (s.endTxn).pins = { s.pins with stb := true } := rfl
@[simp] theorem State.endTxn_txnOpen (s : State) : (s.endTxn).txnOpen = false := rfl
@[simp] theorem State.endTxn_inited (s : State) : (s.endTxn).inited = s.inited := rfl
@[simp] theorem State.endTxn_debounce (s : State) : (s.endTxn).debounce = s.debounce := rfl
@[simp] theorem State.endTxn_work (s : State) : (s.endTxn).work = s.work := rfl
@[simp] theorem State.endTxn_peer (s : State) : (s.endTxn).peer = s.peer.after s.codes s.freeCount s.framing .stop := rfl
@[simp] theorem State.endTxn_trace (s : State) : (s.endTxn).trace = s.trace ++ [.strobe true] := rfl
@[simp] theorem State.endTxn_ret (s : State) : (s.endTxn).ret = s.ret := rfl
@[simp] theorem State.endTxn_framing (s : State) : (s.endTxn).framing = s.framing.next .stop := rfl
@[simp] theorem State.endTxn_requests (s : State) : (s.endTxn).requests = s.requests := rfl
@[simp] theorem State.endTxn_draws (s : State) : (s.endTxn).draws = s.draws := rfl
@[simp] theorem State.endTxn_freeCount (s : State) : (s.endTxn).freeCount = s.freeCount + 1 := rfl
@[simp] theorem State.endTxn_codes (s : State) : (s.endTxn).codes = s.codes := rfl

@[simp] theorem State.sendBytes_pins (s : State) (bs : List Byte) : (s.sendBytes bs).pins = (writeEvents bs).foldl Pins.apply s.pins := rfl
@[simp] theorem State.sendBytes_txnOpen (s : State) (bs : List Byte) : (s.sendBytes bs).txnOpen = s.txnOpen := rfl
@[simp] theorem State.sendBytes_inited (s : State) (bs : List Byte) : (s.sendBytes bs).inited = s.inited := rfl
@[simp] theorem State.sendBytes_debounce (s : State) (bs : List Byte) : (s.sendBytes bs).debounce = s.debounce := rfl
@[simp] theorem State.sendBytes_work (s : State) (bs : List Byte) : (s.sendBytes bs).work = s.work.afterBytes bs := rfl
@[simp] theorem State.sendBytes_peer (s : State) (bs : List Byte) : (s.sendBytes bs).peer = s.peer.after s.codes s.freeCount s.framing (.write bs) := rfl
@[simp] theorem State.sendBytes_trace (s : State) (bs : List Byte) : (s.sendBytes bs).trace = s.trace ++ writeEvents bs := rfl
@[simp] theorem State.sendBytes_ret (s : State) (bs : List Byte) : (s.sendBytes bs).ret = s.ret := rfl
@[simp] theorem State.sendBytes_framing (s : State) (bs : List Byte) : (s.sendBytes bs).framing = s.framing.next (.write bs) := rfl
@[simp] theorem State.sendBytes_requests (s : State) (bs : List Byte) : (s.sendBytes bs).requests = s.requests := rfl
@[simp] theorem State.sendBytes_draws (s : State) (bs : List Byte) : (s.sendBytes bs).draws = s.draws := rfl
@[simp] theorem State.sendBytes_freeCount (s : State) (bs : List Byte) : (s.sendBytes bs).freeCount = s.freeCount + 1 := rfl
@[simp] theorem State.sendBytes_codes (s : State) (bs : List Byte) : (s.sendBytes bs).codes = s.codes := rfl

@[simp] theorem State.recvBytes_pins (s : State) (n : Nat) : (s.recvBytes n).pins = (readEvents (s.answers (8 * n))).foldl Pins.apply s.pins := rfl
@[simp] theorem State.recvBytes_txnOpen (s : State) (n : Nat) : (s.recvBytes n).txnOpen = s.txnOpen := rfl
@[simp] theorem State.recvBytes_inited (s : State) (n : Nat) : (s.recvBytes n).inited = s.inited := rfl
@[simp] theorem State.recvBytes_debounce (s : State) (n : Nat) : (s.recvBytes n).debounce = s.debounce := rfl
@[simp] theorem State.recvBytes_work (s : State) (n : Nat) : (s.recvBytes n).work = s.work.afterBytes (s.received n) := rfl
@[simp] theorem State.recvBytes_peer (s : State) (n : Nat) : (s.recvBytes n).peer = s.peer.after s.codes (s.freeCount + (8 * n - s.draws.length)) s.framing .read := rfl
@[simp] theorem State.recvBytes_trace (s : State) (n : Nat) : (s.recvBytes n).trace = s.trace ++ readEvents (s.answers (8 * n)) := rfl
@[simp] theorem State.recvBytes_ret (s : State) (n : Nat) : (s.recvBytes n).ret = s.ret := rfl
@[simp] theorem State.recvBytes_framing (s : State) (n : Nat) : (s.recvBytes n).framing = s.framing.next .read := rfl
@[simp] theorem State.recvBytes_requests (s : State) (n : Nat) : (s.recvBytes n).requests = s.requests := rfl
@[simp] theorem State.recvBytes_draws (s : State) (n : Nat) : (s.recvBytes n).draws = s.draws.drop (8 * n) := rfl
@[simp] theorem State.recvBytes_freeCount (s : State) (n : Nat) : (s.recvBytes n).freeCount = s.freeCount + (8 * n - s.draws.length) + 1 := rfl
@[simp] theorem State.recvBytes_codes (s : State) (n : Nat) : (s.recvBytes n).codes = s.codes := rfl

@[simp] theorem State.platformUp_pins (s : State) : (s.platformUp).pins = { clk := true, stb := true, dioOut := Config.freeDioOut s.freeCount, dioDir := Config.freeDioDir s.freeCount } := rfl
@[simp] theorem State.platformUp_txnOpen (s : State) : (s.platformUp).txnOpen = s.txnOpen := rfl
@[simp] theorem State.platformUp_inited (s : State) : (s.platformUp).inited = true := rfl
@[simp] theorem State.platformUp_debounce (s : State) : (s.platformUp).debounce = s.debounce := rfl
@[simp] theorem State.platformUp_work (s : State) : (s.platformUp).work = s.work := rfl
@[simp] theorem State.platformUp_peer (s : State) : (s.platformUp).peer = s.peer := rfl
@[simp] theorem State.platformUp_trace (s : State) : (s.platformUp).trace = s.trace ++ [.platformInit] := rfl
@[simp] theorem State.platformUp_ret (s : State) : (s.platformUp).ret = s.ret := rfl
@[simp] theorem State.platformUp_framing (s : State) : (s.platformUp).framing = s.framing := rfl
@[simp] theorem State.platformUp_requests (s : State) : (s.platformUp).requests = s.requests := rfl
@[simp] theorem State.platformUp_draws (s : State) : (s.platformUp).draws = s.draws := rfl
@[simp] theorem State.platformUp_freeCount (s : State) : (s.platformUp).freeCount = s.freeCount + 1 := rfl
@[simp] theorem State.platformUp_codes (s : State) : (s.platformUp).codes = s.codes := rfl

@[simp] theorem State.platformDown_pins (s : State) : (s.platformDown).pins = { clk := Config.freeClk s.freeCount, stb := Config.freeStb s.freeCount, dioOut := Config.freeDioOut s.freeCount, dioDir := Config.freeDioDir s.freeCount } := rfl
@[simp] theorem State.platformDown_txnOpen (s : State) : (s.platformDown).txnOpen = s.txnOpen := rfl
@[simp] theorem State.platformDown_inited (s : State) : (s.platformDown).inited = false := rfl
@[simp] theorem State.platformDown_debounce (s : State) : (s.platformDown).debounce = s.debounce := rfl
@[simp] theorem State.platformDown_work (s : State) : (s.platformDown).work = s.work := rfl
@[simp] theorem State.platformDown_peer (s : State) : (s.platformDown).peer = s.peer := rfl
@[simp] theorem State.platformDown_trace (s : State) : (s.platformDown).trace = s.trace ++ [.platformDeinit] := rfl
@[simp] theorem State.platformDown_ret (s : State) : (s.platformDown).ret = s.ret := rfl
@[simp] theorem State.platformDown_framing (s : State) : (s.platformDown).framing = s.framing := rfl
@[simp] theorem State.platformDown_requests (s : State) : (s.platformDown).requests = s.requests := rfl
@[simp] theorem State.platformDown_draws (s : State) : (s.platformDown).draws = s.draws := rfl
@[simp] theorem State.platformDown_freeCount (s : State) : (s.platformDown).freeCount = s.freeCount + 1 := rfl
@[simp] theorem State.platformDown_codes (s : State) : (s.platformDown).codes = s.codes := rfl

@[simp] theorem State.popRequest_pins (s : State) : (s.popRequest).pins = s.pins := rfl
@[simp] theorem State.popRequest_txnOpen (s : State) : (s.popRequest).txnOpen = s.txnOpen := rfl
@[simp] theorem State.popRequest_inited (s : State) : (s.popRequest).inited = s.inited := rfl
@[simp] theorem State.popRequest_debounce (s : State) : (s.popRequest).debounce = s.debounce := rfl
@[simp] theorem State.popRequest_work (s : State) : (s.popRequest).work = s.work := rfl
@[simp] theorem State.popRequest_peer (s : State) : (s.popRequest).peer = s.peer := rfl
@[simp] theorem State.popRequest_trace (s : State) : (s.popRequest).trace = s.trace := rfl
@[simp] theorem State.popRequest_ret (s : State) : (s.popRequest).ret = s.ret := rfl
@[simp] theorem State.popRequest_framing (s : State) : (s.popRequest).framing = s.framing := rfl
@[simp] theorem State.popRequest_requests (s : State) : (s.popRequest).requests = s.requests.tail := rfl
@[simp] theorem State.popRequest_draws (s : State) : (s.popRequest).draws = s.draws := rfl
@[simp] theorem State.popRequest_freeCount (s : State) : (s.popRequest).freeCount = s.freeCount := rfl
@[simp] theorem State.popRequest_codes (s : State) : (s.popRequest).codes = s.codes := rfl

@[simp] theorem State.decoded_pins (s : State) (raw : Vector Byte 4) : (s.decoded raw).pins = s.pins := rfl
@[simp] theorem State.decoded_txnOpen (s : State) (raw : Vector Byte 4) : (s.decoded raw).txnOpen = s.txnOpen := rfl
@[simp] theorem State.decoded_inited (s : State) (raw : Vector Byte 4) : (s.decoded raw).inited = s.inited := rfl
@[simp] theorem State.decoded_debounce (s : State) (raw : Vector Byte 4) : (s.decoded raw).debounce = s.debounce := rfl
@[simp] theorem State.decoded_work (s : State) (raw : Vector Byte 4) : (s.decoded raw).work = { s.work with acc := decodeRaw raw, ksel := 2 } := rfl
@[simp] theorem State.decoded_peer (s : State) (raw : Vector Byte 4) : (s.decoded raw).peer = s.peer := rfl
@[simp] theorem State.decoded_trace (s : State) (raw : Vector Byte 4) : (s.decoded raw).trace = s.trace := rfl
@[simp] theorem State.decoded_ret (s : State) (raw : Vector Byte 4) : (s.decoded raw).ret = s.ret := rfl
@[simp] theorem State.decoded_framing (s : State) (raw : Vector Byte 4) : (s.decoded raw).framing = s.framing := rfl
@[simp] theorem State.decoded_requests (s : State) (raw : Vector Byte 4) : (s.decoded raw).requests = s.requests := rfl
@[simp] theorem State.decoded_draws (s : State) (raw : Vector Byte 4) : (s.decoded raw).draws = s.draws := rfl
@[simp] theorem State.decoded_freeCount (s : State) (raw : Vector Byte 4) : (s.decoded raw).freeCount = s.freeCount := rfl
@[simp] theorem State.decoded_codes (s : State) (raw : Vector Byte 4) : (s.decoded raw).codes = s.codes := rfl

end Sys2Proof.Machine
end

