-- ==== Sys2Proof/Laws/Memory.lean ====
section
/-! SUPPORT. The Display Register File: what a read sees after a write, and that every operation keeps the canonical form. -/

namespace Sys2Proof.Machine

@[simp] theorem Memory.read_nil (a : Nat) : Memory.read [] a = none := rfl

/-- A read after a write: the byte written there, every other byte as before. -/
@[simp] theorem Memory.read_write (m : Memory) (a b : Nat) (v : Byte) :
    Memory.read (Memory.write m a v) b = if b = a then some v else Memory.read m b := by
  induction m with
  | nil => simp [Memory.write, Memory.read]
  | cons c m ih =>
    obtain ⟨d, w⟩ := c
    by_cases h1 : a < d
    · by_cases h2 : b = a <;> simp [Memory.write, Memory.read, h1, h2]
    · by_cases h2 : a = d
      · subst h2
        by_cases h3 : b = a <;> simp [Memory.write, Memory.read, h3]
      · by_cases h3 : b = d
        · subst h3
          simp [Memory.write, Memory.read, h1, h2, Ne.symm h2]
        · simp [Memory.write, Memory.read, h1, h2, h3, ih]

/-- A write to a listed address leaves the list of addresses as it was. -/
theorem Memory.map_fst_write {m : Memory} {a : Nat} (v : Byte) (hs : (m.map Prod.fst).Pairwise (· < ·))
    (ha : a ∈ m.map Prod.fst) : (Memory.write m a v).map Prod.fst = m.map Prod.fst := by
  induction m with
  | nil => simp at ha
  | cons c m ih =>
    obtain ⟨d, w⟩ := c
    obtain ⟨h1, h2⟩ := List.pairwise_cons.mp hs
    by_cases h : a = d
    · subst h
      simp [Memory.write]
    · have hm : a ∈ m.map Prod.fst := by simpa [h] using ha
      have hlt : d < a := h1 a hm
      simp [Memory.write, h, Nat.not_lt.mpr hlt.le, ih h2 hm]

/-- A write inside the address space keeps the canonical form. -/
theorem Memory.wf_write {m : Memory} {a : Nat} (v : Byte) (hm : Memory.wf m) (ha : a < Config.nRegs) :
    Memory.wf (Memory.write m a v) := by
  have h : m.map Prod.fst = List.range Config.nRegs := hm
  refine (Memory.map_fst_write v ?_ ?_).trans h
  · rw [h]; exact List.pairwise_lt_range
  · rw [h]; exact List.mem_range.mpr ha

/-- A read of a listed address gives a byte, a read of any other gives none. -/
theorem Memory.isSome_read (m : Memory) (a : Nat) : (Memory.read m a).isSome = true ↔ a ∈ m.map Prod.fst := by
  induction m with
  | nil => simp
  | cons c m ih =>
    obtain ⟨d, w⟩ := c
    by_cases h : a = d <;> simp [Memory.read, h, ih]

/-- In canonical form exactly the 16 registers hold a byte (R17, R30). -/
theorem Memory.isSome_read_iff {m : Memory} (hm : Memory.wf m) (a : Nat) :
    (Memory.read m a).isSome = true ↔ a < 16 := by
  rw [Memory.isSome_read, hm, List.mem_range]

/-- A chip about which nothing is known still has 16 registers in canonical form. -/
theorem Peer.unknown_wf (n : Nat) : Memory.wf (Peer.unknown n).dr := by
  simp [Memory.wf, Peer.unknown, Function.comp_def]

@[simp] theorem Peer.command_dr (p : Peer) (n : Nat) (c : Command) : (p.command n c).dr = p.dr := by
  cases c <;> rfl

/-- What a data byte does at the chip, field by field: its register and the pointer are all it writes. -/
@[simp] theorem Peer.store_dr (p : Peer) (n i : Nat) (v : Byte) :
    (p.store n i v).dr = Memory.write p.dr p.addrPtr.toNat v := rfl
@[simp] theorem Peer.store_mode (p : Peer) (n i : Nat) (v : Byte) : (p.store n i v).mode = p.mode := rfl
@[simp] theorem Peer.store_dispOn (p : Peer) (n i : Nat) (v : Byte) : (p.store n i v).dispOn = p.dispOn := rfl
@[simp] theorem Peer.store_bright (p : Peer) (n i : Nat) (v : Byte) : (p.store n i v).bright = p.bright := rfl
@[simp] theorem Peer.store_addrPtr (p : Peer) (n i : Nat) (v : Byte) :
    (p.store n i v).addrPtr = if p.mode.addressing = .fixed then p.addrPtr else Config.freeAddrPtr n i := rfl

theorem Peer.store_wf {p : Peer} (n i : Nat) (v : Byte) (h : Memory.wf p.dr) : Memory.wf (p.store n i v).dr :=
  Memory.wf_write v h p.addrPtr.isLt

theorem Peer.storeAll_wf {p : Peer} (n : Nat) (vs : List Byte) (h : Memory.wf p.dr) :
    Memory.wf (p.storeAll n vs).dr := by
  unfold Peer.storeAll
  generalize vs.zipIdx = ws
  induction ws generalizing p with
  | nil => exact h
  | cons w ws ih => exact ih (Peer.store_wf n w.2 w.1 h)

/-- Several data bytes: every register keeps its byte or holds one of them, and the chip's settings stay. -/
theorem Peer.storeAll_keeps (p : Peer) (n : Nat) (vs : List Byte) :
    (∀ b, Memory.read (p.storeAll n vs).dr b = Memory.read p.dr b ∨
      ∃ v ∈ vs, Memory.read (p.storeAll n vs).dr b = some v) ∧
    (p.storeAll n vs).mode = p.mode ∧ (p.storeAll n vs).dispOn = p.dispOn ∧ (p.storeAll n vs).bright = p.bright := by
  have go : ∀ (ws : List (Byte × Nat)) (p : Peer), (∀ w ∈ ws, w.1 ∈ vs) →
      (∀ b, Memory.read (ws.foldl (fun p v => p.store n v.2 v.1) p).dr b = Memory.read p.dr b ∨
        ∃ v ∈ vs, Memory.read (ws.foldl (fun p v => p.store n v.2 v.1) p).dr b = some v) ∧
      (ws.foldl (fun p v => p.store n v.2 v.1) p).mode = p.mode ∧
      (ws.foldl (fun p v => p.store n v.2 v.1) p).dispOn = p.dispOn ∧
      (ws.foldl (fun p v => p.store n v.2 v.1) p).bright = p.bright := by
    intro ws
    induction ws with
    | nil => intro p _; exact ⟨fun _ => .inl rfl, rfl, rfl, rfl⟩
    | cons w ws ih =>
      intro p h
      obtain ⟨h1, h2⟩ := ih (p.store n w.2 w.1) fun x hx => h x (List.mem_cons_of_mem _ hx)
      refine ⟨fun b => ?_, h2⟩
      rcases h1 b with e | e
      · rw [Peer.store_dr, Memory.read_write] at e
        split at e
        · exact .inr ⟨w.1, h w List.mem_cons_self, e⟩
        · exact .inl e
      · exact .inr e
  exact go _ p fun w hw => (List.mem_zipIdx' hw).2 ▸ List.getElem_mem _

/-- In fixed-address mode all of them go to one register, which keeps the last. -/
theorem Peer.storeAll_fixed (p : Peer) (n : Nat) (vs : List Byte) (v : Byte) (h : p.mode.addressing = .fixed) :
    (∀ b, Memory.read (p.storeAll n (vs ++ [v])).dr b =
      if b = p.addrPtr.toNat then some v else Memory.read p.dr b) ∧
    (p.storeAll n (vs ++ [v])).addrPtr = p.addrPtr := by
  have go : ∀ (ws : List (Byte × Nat)) (p : Peer), p.mode.addressing = .fixed →
      (ws.foldl (fun p v => p.store n v.2 v.1) p).addrPtr = p.addrPtr ∧
      (ws.foldl (fun p v => p.store n v.2 v.1) p).mode = p.mode ∧
      ∀ b, b ≠ p.addrPtr.toNat →
        Memory.read (ws.foldl (fun p v => p.store n v.2 v.1) p).dr b = Memory.read p.dr b := by
    intro ws
    induction ws with
    | nil => intro p _; exact ⟨rfl, rfl, fun _ _ => rfl⟩
    | cons w ws ih =>
      intro p hp
      obtain ⟨h1, h2, h3⟩ := ih (p.store n w.2 w.1) hp
      have ha : (p.store n w.2 w.1).addrPtr = p.addrPtr := by simp [hp]
      refine ⟨h1.trans ha, h2, fun b hb => ?_⟩
      rw [List.foldl_cons, h3 b (by rwa [ha])]
      simp [hb]
  obtain ⟨h1, h2, h3⟩ := go vs.zipIdx p h
  simp only [Peer.storeAll, List.zipIdx_append, List.foldl_append, List.zipIdx_cons, List.zipIdx_nil, List.foldl_cons,
    List.foldl_nil, Peer.store_dr, Peer.store_addrPtr, Memory.read_write, h1, h2, h, if_true]
  refine ⟨fun b => ?_, trivial⟩
  split
  · rfl
  · rename_i hb
    exact h3 b hb

/-- Whatever frame reaches the chip, its register file stays in canonical form. -/
theorem Peer.frame_wf {p : Peer} (k : CommandBytes) (n : Nat) (r : Bool) (bytes : List Byte) (h : Memory.wf p.dr) :
    Memory.wf (p.frame k n r bytes).dr := by
  unfold Peer.frame
  split
  · exact Peer.unknown_wf n
  · split
    · unfold Peer.writeFrame
      split
      · rwa [Peer.command_dr]
      · exact Peer.store_wf n 0 _ (by rwa [Peer.command_dr])
      · split
        · exact Peer.storeAll_wf n _ (by rwa [Peer.command_dr])
        · exact Peer.unknown_wf n
      · exact Peer.unknown_wf n
    · unfold Peer.readFrame
      split
      · split
        · exact h
        · exact Peer.unknown_wf n
      · exact Peer.unknown_wf n

/-- Whatever a transport operation does to the chip, its register file stays in canonical form. -/
theorem Peer.after_wf {p : Peer} (k : CommandBytes) (n : Nat) (f : Framing) (act : BusAct) (h : Memory.wf p.dr) :
    Memory.wf (p.after k n f act).dr := by
  unfold Peer.after
  split <;> first | exact h | exact Peer.frame_wf k n _ _ h | exact Peer.unknown_wf n

end Sys2Proof.Machine
end

