-- ==== Sys2Proof/Laws/Wire.lean ====
section
/-! SUPPORT. The wire: instruction bytes decode to what they encode, bytes and bits go back and forth, and what a list of events does to the pins, to its length, to the clock edges, to the time and to an observer. -/

namespace Sys2Proof.Machine

/-! ## Instruction bytes -/

theorem mem_allCommands (c : Command) : c ∈ allCommands := by
  cases c with
  | dataMode t a x => revert x; cases t <;> cases a <;> decide
  | display on br => revert br; cases on <;> decide
  | addr a => revert a; decide

/-- The default parameters are distinct bytes (R57). -/
theorem CommandBytes.defaults_ok : CommandBytes.defaults.Ok := by decide

/-- Distinct bytes: two commands with one byte are one command. -/
theorem encodeCommand_injective {k : CommandBytes} (hk : k.Ok) {c d : Command}
    (h : encodeCommand k c = encodeCommand k d) : c = d :=
  List.inj_on_of_nodup_map hk (mem_allCommands c) (mem_allCommands d) h

/-- A byte read as a command is that command's byte. -/
theorem encode_decodeCommand {k : CommandBytes} {b : Byte} {c : Command} (h : decodeCommand k b = .ok c) :
    encodeCommand k c = b := by
  unfold decodeCommand at h
  split at h
  · rename_i d hd
    cases h
    simpa using List.find?_some hd
  · cases h

/-- The chip reads every command byte as the command it stands for, whatever distinct bytes the parameters are. -/
@[simp] theorem decodeCommand_encode {k : CommandBytes} (hk : k.Ok) (c : Command) :
    decodeCommand k (encodeCommand k c) = .ok c := by
  unfold decodeCommand
  split
  · rename_i d hd
    have hb : encodeCommand k d = encodeCommand k c := by simpa using List.find?_some hd
    rw [encodeCommand_injective hk hb]
  · rename_i hn
    simpa using List.find?_eq_none.mp hn c (mem_allCommands c)

/-- A byte that is no command's is of no class. -/
theorem decodeCommand_none {k : CommandBytes} {b : Byte} (h : ∀ c, b ≠ encodeCommand k c) :
    decodeCommand k b = .error .noClass := by
  unfold decodeCommand
  split
  · rename_i c hc
    have hb : encodeCommand k c = b := by simpa using List.find?_some hc
    exact absurd hb.symm (h c)
  · rfl

@[simp] theorem decodeCommand_dataWriteAutoinc {k : CommandBytes} (hk : k.Ok) :
    decodeCommand k k.dataWriteAutoinc = .ok (.dataMode .normal .autoInc 0b00) := decodeCommand_encode hk _

@[simp] theorem decodeCommand_dataReadKeys {k : CommandBytes} (hk : k.Ok) :
    decodeCommand k k.dataReadKeys = .ok (.dataMode .normal .autoInc 0b10) := decodeCommand_encode hk _

@[simp] theorem decodeCommand_addr {k : CommandBytes} (hk : k.Ok) (a : BitVec 4) :
    decodeCommand k (k.addr a) = .ok (.addr a) := decodeCommand_encode hk _

/-! ## Bytes and bits -/

@[simp] theorem length_bitsOfByte (v : Byte) : (bitsOfByte v).length = 8 := by simp [bitsOfByte]

/-- Bit `j` of the assembled byte is sample `j`. -/
theorem getLsbD_byteOfBits (bits : List Bool) (j : Nat) (h : j < 8) :
    (byteOfBits bits).getLsbD j = bits.getD j false := by
  simp [byteOfBits, h]

/-- A byte sent and assembled again is the same byte, whatever follows it on the wire. -/
theorem byteOfBits_bitsOfByte (v : Byte) (rest : List Bool) : byteOfBits (bitsOfByte v ++ rest) = v := by
  apply BitVec.eq_of_getLsbD_eq
  intro j h
  rw [getLsbD_byteOfBits _ _ h, List.getD_eq_getElem?_getD, List.getElem?_append_left (by simpa using h)]
  simp [bitsOfByte, h]

/-- A list of bytes sent and assembled again is the same list. -/
theorem bytesOfBits_flatMap (bytes : List Byte) :
    bytesOfBits bytes.length (bytes.flatMap bitsOfByte) = bytes := by
  induction bytes with
  | nil => simp [bytesOfBits]
  | cons v bytes ih =>
    unfold bytesOfBits at ih ⊢
    have hd : ∀ m, (bitsOfByte v ++ bytes.flatMap bitsOfByte).drop (8 * (m + 1)) =
        (bytes.flatMap bitsOfByte).drop (8 * m) := fun m => by
      rw [Nat.mul_add, Nat.add_comm (8 * m), ← List.drop_drop]
      congr 1
    simp only [List.length_cons, List.range_succ_eq_map, List.map_cons, List.map_map, List.flatMap_cons,
      Function.comp_def, Nat.succ_eq_add_one, hd, ih, Nat.mul_zero, List.drop_zero, byteOfBits_bitsOfByte]

@[simp] theorem length_bytesOfBits (n : Nat) (bits : List Bool) : (bytesOfBits n bits).length = n := by
  simp [bytesOfBits]

@[simp] theorem length_flatMap_bitsOfByte (bytes : List Byte) :
    (bytes.flatMap bitsOfByte).length = 8 * bytes.length := by
  induction bytes with
  | nil => rfl
  | cons v bytes ih => simp [ih]; omega

/-- Bit `j` of received byte `m` is sample `8m + j`. -/
theorem getLsbD_bytesOfBits (n m j : Nat) (bits : List Bool) (hm : m < n) (hj : j < 8) :
    ((bytesOfBits n bits).getD m 0).getLsbD j = bits.getD (8 * m + j) false := by
  have h : (bytesOfBits n bits).getD m 0 = byteOfBits (bits.drop (8 * m)) := by
    simp [bytesOfBits, hm]
  rw [h, getLsbD_byteOfBits _ _ hj]
  simp [List.getD_eq_getElem?_getD]

@[simp] theorem State.length_answers (s : State) (n : Nat) : (s.answers n).length = n := by
  simp [State.answers]; omega

/-! ## Lengths -/

@[simp] theorem length_writeCell (b : Bool) : (writeCell b).length = 5 := rfl
@[simp] theorem length_readCell (b : Bool) : (readCell b).length = 5 := rfl

theorem length_flatMap_writeCell (bits : List Bool) : (bits.flatMap writeCell).length = 5 * bits.length := by
  induction bits with
  | nil => rfl
  | cons b bits ih => simp [ih]; omega

theorem length_flatMap_readCell (bits : List Bool) : (bits.flatMap readCell).length = 5 * bits.length := by
  induction bits with
  | nil => rfl
  | cons b bits ih => simp [ih]; omega

@[simp] theorem length_byteCells (v : Byte) : (byteCells v).length = 40 := by
  simp [byteCells]

/-- `writeBytes` of `n` bytes is `1 + 40 n` events (R74). -/
@[simp] theorem length_writeEvents (bytes : List Byte) : (writeEvents bytes).length = 1 + 40 * bytes.length := by
  induction bytes with
  | nil => rfl
  | cons v bytes ih => simp [writeEvents] at ih ⊢; omega

/-- `readBytes` of `m` samples is `2 + 5 m` events (R75: `2 + 40 n`). -/
@[simp] theorem length_readEvents (bits : List Bool) : (readEvents bits).length = 2 + 5 * bits.length := by
  simp [readEvents]; omega

@[simp] theorem length_frameEvents (bytes : List Byte) : (frameEvents bytes).length = 3 + 40 * bytes.length := by
  simp [frameEvents]; omega

/-! ## Pins -/

theorem foldl_byteCells (p : Pins) (v : Byte) :
    (byteCells v).foldl Pins.apply p = { p with clk := true, dioOut := v.getLsbD 7 } := by
  simp [byteCells, bitsOfByte, List.range_succ, writeCell, Pins.apply]

theorem foldl_flatMap_byteCells (p : Pins) (bytes : List Byte) :
    (bytes.flatMap byteCells).foldl Pins.apply p =
      match bytes.getLast? with
      | none => p
      | some v => { p with clk := true, dioOut := v.getLsbD 7 } := by
  induction bytes generalizing p with
  | nil => rfl
  | cons v bytes ih =>
    rw [List.flatMap_cons, List.foldl_append, foldl_byteCells, ih]
    cases bytes with
    | nil => rfl
    | cons w bytes => simp [List.getLast?_cons_cons]; split <;> simp_all

/-- After `writeBytes` the data line is an output, the clock high and the last bit on the line (R74). -/
theorem foldl_writeEvents (p : Pins) (bytes : List Byte) :
    (writeEvents bytes).foldl Pins.apply p =
      match bytes.getLast? with
      | none => { p with dioDir := .out }
      | some v => { p with dioDir := .out, clk := true, dioOut := v.getLsbD 7 } := by
  rw [writeEvents, List.foldl_cons, foldl_flatMap_byteCells]
  split <;> rfl

/-- After `readBytes` the data line is an input, and the clock high if a bit was read (R75). -/
theorem foldl_readEvents (p : Pins) (bits : List Bool) :
    (readEvents bits).foldl Pins.apply p =
      { p with dioDir := .input, clk := if bits = [] then p.clk else true } := by
  have h : ∀ q : Pins, (bits.flatMap readCell).foldl Pins.apply q =
      { q with clk := if bits = [] then q.clk else true } := by
    induction bits with
    | nil => intro q; rfl
    | cons b bits ih =>
      intro q
      rw [List.flatMap_cons, List.foldl_append, ih]
      by_cases hb : bits = [] <;> simp [hb, readCell, Pins.apply]
  simp [readEvents, h, Pins.apply]

/-- After a frame that wrote something: strobe and clock high, the data line an output. -/
theorem foldl_frameEvents (p : Pins) (bytes : List Byte) (v : Byte) :
    (frameEvents (bytes ++ [v])).foldl Pins.apply p =
      { clk := true, stb := true, dioOut := v.getLsbD 7, dioDir := .out } := by
  simp only [frameEvents, List.foldl_cons, List.foldl_append, foldl_writeEvents]
  simp [Pins.apply]

/-! ## Clock edges, samples, time -/

@[simp] theorem clockEdges_append (es fs : List Event) : clockEdges (es ++ fs) = clockEdges es ++ clockEdges fs := by
  induction es with
  | nil => rfl
  | cons e es ih => cases e <;> simp [clockEdges, ih]

@[simp] theorem samples_append (es fs : List Event) : samples (es ++ fs) = samples es ++ samples fs := by
  induction es with
  | nil => rfl
  | cons e es ih => cases e <;> simp [samples, ih]

@[simp] theorem busyTime_append (es fs : List Event) : busyTime (es ++ fs) = busyTime es + busyTime fs := by
  simp [busyTime]

@[simp] theorem busyTime_nil : busyTime [] = 0 := rfl

@[simp] theorem busyTime_cons (e : Event) (es : List Event) : busyTime (e :: es) = eventBusy e + busyTime es := by
  simp [busyTime]

theorem busyTime_byteCells (v : Byte) : busyTime (byteCells v) = 16 * Config.tHalf := by
  simp [byteCells, bitsOfByte, List.range_succ, writeCell, eventBusy]; omega

theorem busyTime_writeEvents (bytes : List Byte) :
    busyTime (writeEvents bytes) = 16 * bytes.length * Config.tHalf := by
  have h : busyTime (bytes.flatMap byteCells) = 16 * bytes.length * Config.tHalf := by
    induction bytes with
    | nil => simp
    | cons v bytes ih =>
      rw [List.flatMap_cons, busyTime_append, ih, busyTime_byteCells, List.length_cons]
      ring
  simp [writeEvents, h, eventBusy]

theorem busyTime_frameEvents (bytes : List Byte) :
    busyTime (frameEvents bytes) = 16 * bytes.length * Config.tHalf := by
  simp [frameEvents, busyTime_writeEvents, eventBusy]

theorem busyTime_readEvents (bits : List Bool) :
    busyTime (readEvents bits) = Config.tSettle + 2 * bits.length * Config.tHalf := by
  have h : busyTime (bits.flatMap readCell) = 2 * bits.length * Config.tHalf := by
    induction bits with
    | nil => simp
    | cons b bits ih =>
      rw [List.flatMap_cons, busyTime_append, ih, List.length_cons]
      simp [readCell, eventBusy]; ring
  simp [readEvents, h, eventBusy]

/-! ## An observer -/

theorem see_byteCells (w : Watch) (v : Byte) (h1 : w.inFrame = true) (h2 : w.driven = true) :
    (byteCells v).foldl Watch.see w = { w with level := v.getLsbD 7, bits := w.bits ++ bitsOfByte v } := by
  simp [byteCells, bitsOfByte, List.range_succ, writeCell, Watch.see, h1, h2]

theorem see_flatMap_byteCells (w : Watch) (bytes : List Byte) (h1 : w.inFrame = true) (h2 : w.driven = true) :
    ∃ b, (bytes.flatMap byteCells).foldl Watch.see w =
      { w with level := b, bits := w.bits ++ bytes.flatMap bitsOfByte } := by
  induction bytes generalizing w with
  | nil => exact ⟨w.level, by simp⟩
  | cons v bytes ih =>
    obtain ⟨b, hb⟩ := ih { w with level := v.getLsbD 7, bits := w.bits ++ bitsOfByte v } h1 h2
    exact ⟨b, by rw [List.flatMap_cons, List.foldl_append, see_byteCells w v h1 h2, hb]; simp⟩

/-- An observer outside a frame sees exactly the bytes of a frame. -/
theorem see_frameEvents (w : Watch) (bytes : List Byte) :
    ∃ b, (frameEvents bytes).foldl Watch.see w =
      { inFrame := false, driven := true, level := b, bits := [], frames := w.frames ++ [bytes] } := by
  obtain ⟨b, hb⟩ := see_flatMap_byteCells { w with inFrame := true, bits := [], driven := true } bytes rfl rfl
  refine ⟨b, ?_⟩
  have hw : (writeEvents bytes).foldl Watch.see (w.see (.strobe false)) =
      { inFrame := true, driven := true, level := b, bits := bytes.flatMap bitsOfByte, frames := w.frames } := by
    simpa [writeEvents, Watch.see] using hb
  rw [frameEvents, List.foldl_cons, List.foldl_append, hw]
  simp [Watch.see, bytesOfBits_flatMap]

end Sys2Proof.Machine
end

