-- ==== Sys2Proof/Laws/Frames.lean ====
section
/-! SUPPORT. Frames and sequences of frames: everything each leaves in the state, said once. -/

namespace Sys2Proof.Machine

/-! ## One frame -/

@[simp] theorem State.sendFrame_trace (s : State) (bs : List Byte) :
    (s.sendFrame bs).trace = s.trace ++ frameEvents bs := by
  simp [State.sendFrame, frameEvents]

@[simp] theorem State.sendFrame_pins (s : State) (bs : List Byte) :
    (s.sendFrame bs).pins = (frameEvents bs).foldl Pins.apply s.pins := by
  simp [State.sendFrame, frameEvents, Pins.apply]

@[simp] theorem State.sendFrame_txnOpen (s : State) (bs : List Byte) : (s.sendFrame bs).txnOpen = false := rfl
@[simp] theorem State.sendFrame_inited (s : State) (bs : List Byte) : (s.sendFrame bs).inited = s.inited := rfl
@[simp] theorem State.sendFrame_debounce (s : State) (bs : List Byte) : (s.sendFrame bs).debounce = s.debounce := rfl
@[simp] theorem State.sendFrame_work (s : State) (bs : List Byte) :
    (s.sendFrame bs).work = s.work.afterBytes bs := rfl
@[simp] theorem State.sendFrame_ret (s : State) (bs : List Byte) : (s.sendFrame bs).ret = s.ret := rfl
@[simp] theorem State.sendFrame_requests (s : State) (bs : List Byte) : (s.sendFrame bs).requests = s.requests := rfl
@[simp] theorem State.sendFrame_draws (s : State) (bs : List Byte) : (s.sendFrame bs).draws = s.draws := rfl
@[simp] theorem State.sendFrame_freeCount (s : State) (bs : List Byte) :
    (s.sendFrame bs).freeCount = s.freeCount + 3 := rfl
@[simp] theorem State.sendFrame_codes (s : State) (bs : List Byte) : (s.sendFrame bs).codes = s.codes := rfl

/-- A frame sent on a bus whose framing premise holds leaves it so. -/
@[simp] theorem State.sendFrame_framing {s : State} (bs : List Byte) (h : s.framing = .idle) :
    (s.sendFrame bs).framing = .idle := by
  simp [State.sendFrame, h, Framing.next]

/-- Then the frame reaches the chip. -/
theorem State.sendFrame_peer {s : State} (bs : List Byte) (h : s.framing = .idle) :
    (s.sendFrame bs).peer = s.peer.frame s.codes (s.freeCount + 2) false bs := by
  simp [State.sendFrame, h, Framing.next, Peer.after]

/-- Sent on a bus whose premise is broken, it leaves nothing known of the chip. -/
theorem State.sendFrame_broken {s : State} (bs : List Byte) (h : s.framing = .broken) :
    (s.sendFrame bs).framing = .broken ∧ (s.sendFrame bs).peer = Peer.unknown (s.freeCount + 2) := by
  simp [State.sendFrame, h, Framing.next, Peer.after]

/-- Whatever the premise, the chip's register file stays in canonical form. -/
theorem State.sendFrame_wf {s : State} (bs : List Byte) (h : Memory.wf s.peer.dr) :
    Memory.wf (s.sendFrame bs).peer.dr := by
  simp only [State.sendFrame, State.endTxn_peer, State.sendBytes_peer, State.startTxn_peer]
  exact Peer.after_wf _ _ _ _ (Peer.after_wf _ _ _ _ (Peer.after_wf _ _ _ _ h))

/-- `F_CMD` of a command byte: the chip obeys it (R91). -/
theorem State.frameCmd_peer {s : State} (c : Command) (h : s.framing = .idle) (hk : s.codes.Ok) :
    (s.frameCmd (encodeCommand s.codes c)).peer = s.peer.command (s.freeCount + 2) c := by
  simp [State.frameCmd, State.sendFrame_peer _ h, Peer.frame, Peer.writeFrame, hk]

/-- `F_WR`: the chip stores the byte at the address (R33, R47, R92). -/
theorem State.frameWrite_peer {s : State} (a : BitVec 4) (v : Byte) (h : s.framing = .idle) (hk : s.codes.Ok) :
    (s.frameWrite a v).peer =
      { s.peer with
        dr := Memory.write s.peer.dr a.toNat v
        addrPtr := if s.peer.mode.addressing = .fixed then a else Config.freeAddrPtr (s.freeCount + 2) 0 } := by
  simp [State.frameWrite, State.sendFrame_peer _ h, Peer.frame, Peer.writeFrame, hk, Peer.store, Peer.command,
    Peer.advance]
  rfl

/-! ## A byte that reaches the chip as a frame of its own (log 5) -/

/-- On an idle bus whose premise holds the premise stays, and the frame reaches the chip. -/
theorem State.chipFrame_idle {s : State} (b : Byte) (h : s.framing = .idle) :
    s.chipFrame b = { s with
      peer := s.peer.frame s.codes (s.freeCount + 2) false [b], freeCount := s.freeCount + 3 } := by
  simp [State.chipFrame, State.frameAct, h, Framing.next, Peer.after]

/-- Then a command byte is obeyed. -/
theorem State.chipFrame_command {s : State} (c : Command) (h : s.framing = .idle) (hk : s.codes.Ok) :
    s.chipFrame (encodeCommand s.codes c) =
      { s with peer := s.peer.command (s.freeCount + 2) c, freeCount := s.freeCount + 3 } := by
  rw [State.chipFrame_idle _ h]
  simp [Peer.frame, Peer.writeFrame, hk]

/-- In a frame of the block, or once the premise is broken, nothing is known of the chip. -/
theorem State.chipFrame_broken {s : State} (b : Byte) (h : s.framing ≠ .idle) :
    s.chipFrame b = { s with
      framing := .broken, peer := Peer.unknown (s.freeCount + 2), freeCount := s.freeCount + 3 } := by
  cases hf : s.framing <;> simp_all [State.chipFrame, State.frameAct, Framing.next, Peer.after]

/-- Whatever the premise, the chip's register file stays in canonical form. -/
theorem State.chipFrame_wf {s : State} (b : Byte) (h : Memory.wf s.peer.dr) : Memory.wf (s.chipFrame b).peer.dr := by
  simp only [State.chipFrame, State.frameAct_peer]
  exact Peer.after_wf _ _ _ _ (Peer.after_wf _ _ _ _ (Peer.after_wf _ _ _ _ h))

/-! ## Sequences of `F_WR` frames -/

/-- The events of one `F_WR` frame for each (address, byte). -/
def writesEvents (k : CommandBytes) (ws : List (BitVec 4 × Byte)) : List Event :=
  ws.flatMap fun w => frameEvents [k.addr w.1, w.2]

/-- The frame's own description of everything it leaves alone: the Debounce State, `inited`, the caller's queue, the
wire's answers, the last result, the parameters. -/
theorem State.frameWrites_keeps (s : State) (ws : List (BitVec 4 × Byte)) :
    (s.frameWrites ws).inited = s.inited ∧ (s.frameWrites ws).debounce = s.debounce ∧
    (s.frameWrites ws).requests = s.requests ∧ (s.frameWrites ws).draws = s.draws ∧
    (s.frameWrites ws).ret = s.ret ∧ (s.frameWrites ws).codes = s.codes := by
  induction ws generalizing s with
  | nil => simp [State.frameWrites]
  | cons w ws ih => exact ih (s.frameWrite w.1 w.2)

@[simp] theorem State.frameWrites_inited (s : State) (ws : List (BitVec 4 × Byte)) :
    (s.frameWrites ws).inited = s.inited := (s.frameWrites_keeps ws).1
@[simp] theorem State.frameWrites_debounce (s : State) (ws : List (BitVec 4 × Byte)) :
    (s.frameWrites ws).debounce = s.debounce := (s.frameWrites_keeps ws).2.1
@[simp] theorem State.frameWrites_requests (s : State) (ws : List (BitVec 4 × Byte)) :
    (s.frameWrites ws).requests = s.requests := (s.frameWrites_keeps ws).2.2.1
@[simp] theorem State.frameWrites_draws (s : State) (ws : List (BitVec 4 × Byte)) :
    (s.frameWrites ws).draws = s.draws := (s.frameWrites_keeps ws).2.2.2.1
@[simp] theorem State.frameWrites_ret (s : State) (ws : List (BitVec 4 × Byte)) :
    (s.frameWrites ws).ret = s.ret := (s.frameWrites_keeps ws).2.2.2.2.1
@[simp] theorem State.frameWrites_codes (s : State) (ws : List (BitVec 4 × Byte)) :
    (s.frameWrites ws).codes = s.codes := (s.frameWrites_keeps ws).2.2.2.2.2

@[simp] theorem State.frameWrites_trace (s : State) (ws : List (BitVec 4 × Byte)) :
    (s.frameWrites ws).trace = s.trace ++ writesEvents s.codes ws := by
  induction ws generalizing s with
  | nil => simp [State.frameWrites, writesEvents]
  | cons w ws ih =>
    have h := ih (s.frameWrite w.1 w.2)
    simp only [State.frameWrite, State.sendFrame_trace, State.sendFrame_codes, List.append_assoc] at h
    simpa [State.frameWrites, writesEvents, State.frameWrite] using h

@[simp] theorem State.frameWrites_pins (s : State) (ws : List (BitVec 4 × Byte)) :
    (s.frameWrites ws).pins = (writesEvents s.codes ws).foldl Pins.apply s.pins := by
  induction ws generalizing s with
  | nil => simp [State.frameWrites, writesEvents]
  | cons w ws ih =>
    have h := ih (s.frameWrite w.1 w.2)
    simp only [State.frameWrite, State.sendFrame_pins, State.sendFrame_codes] at h
    simpa [State.frameWrites, writesEvents, State.frameWrite] using h

@[simp] theorem State.frameWrites_freeCount (s : State) (ws : List (BitVec 4 × Byte)) :
    (s.frameWrites ws).freeCount = s.freeCount + 3 * ws.length := by
  induction ws generalizing s with
  | nil => simp [State.frameWrites]
  | cons w ws ih =>
    have h := ih (s.frameWrite w.1 w.2)
    simp only [State.frameWrite, State.sendFrame_freeCount] at h
    simp only [State.frameWrites, State.frameWrite, List.foldl_cons, List.length_cons] at h ⊢
    omega

@[simp] theorem State.frameWrites_txnOpen {s : State} (ws : List (BitVec 4 × Byte)) (h : s.txnOpen = false) :
    (s.frameWrites ws).txnOpen = false := by
  induction ws generalizing s with
  | nil => simpa [State.frameWrites] using h
  | cons w ws ih => exact ih (s := s.frameWrite w.1 w.2) rfl

@[simp] theorem State.frameWrites_framing {s : State} (ws : List (BitVec 4 × Byte)) (h : s.framing = .idle) :
    (s.frameWrites ws).framing = .idle := by
  induction ws generalizing s with
  | nil => simpa [State.frameWrites] using h
  | cons w ws ih => exact ih (s := s.frameWrite w.1 w.2) (State.sendFrame_framing _ h)

theorem State.frameWrites_wf {s : State} (ws : List (BitVec 4 × Byte)) (h : Memory.wf s.peer.dr) :
    Memory.wf (s.frameWrites ws).peer.dr := by
  induction ws generalizing s with
  | nil => simpa [State.frameWrites] using h
  | cons w ws ih => exact ih (s := s.frameWrite w.1 w.2) (State.sendFrame_wf _ h)

/-- What a list of writes leaves at an address: the last byte written there, else what stood there. -/
def lastWrite (ws : List (BitVec 4 × Byte)) (a : Nat) (old : Option Byte) : Option Byte :=
  ws.foldl (fun o w => if a = w.1.toNat then some w.2 else o) old

/-- What the frames leave in the chip: each byte at its address, nothing else written. -/
theorem State.frameWrites_peer {s : State} (ws : List (BitVec 4 × Byte)) (h : s.framing = .idle) (hk : s.codes.Ok) :
    (∀ a, Memory.read (s.frameWrites ws).peer.dr a = lastWrite ws a (Memory.read s.peer.dr a)) ∧
    (s.frameWrites ws).peer.mode = s.peer.mode ∧ (s.frameWrites ws).peer.dispOn = s.peer.dispOn ∧
    (s.frameWrites ws).peer.bright = s.peer.bright := by
  induction ws generalizing s with
  | nil => simp [State.frameWrites, lastWrite]
  | cons w ws ih =>
    have hp := State.frameWrite_peer w.1 w.2 h hk
    obtain ⟨h1, h2, h3, h4⟩ := ih (s := s.frameWrite w.1 w.2) (State.sendFrame_framing _ h) hk
    rw [hp] at h2 h3 h4
    refine ⟨fun a => ?_, h2, h3, h4⟩
    have := h1 a
    rw [hp] at this
    simpa [State.frameWrites, lastWrite] using this

/-! ## Mode select and writes: `setDigits`, `setLeds` (R93, R96, R97) -/

/-- The events of the mode-select frame and one `F_WR` frame for each (address, byte). -/
def modeAndWritesEvents (k : CommandBytes) (ws : List (BitVec 4 × Byte)) : List Event :=
  frameEvents [k.dataWriteAutoinc] ++ writesEvents k ws

/-- Everything `modeAndWrites` does outside the chip. -/
theorem State.modeAndWrites_block (s : State) (ws : List (BitVec 4 × Byte)) :
    (s.modeAndWrites ws).trace = s.trace ++ modeAndWritesEvents s.codes ws ∧
    (s.modeAndWrites ws).pins = (modeAndWritesEvents s.codes ws).foldl Pins.apply s.pins ∧
    (s.modeAndWrites ws).txnOpen = false ∧ (s.modeAndWrites ws).inited = s.inited ∧
    (s.modeAndWrites ws).debounce = s.debounce ∧ (s.modeAndWrites ws).requests = s.requests ∧
    (s.modeAndWrites ws).draws = s.draws ∧ (s.modeAndWrites ws).ret = s.ret ∧
    (s.modeAndWrites ws).codes = s.codes ∧ (s.modeAndWrites ws).freeCount = s.freeCount + 3 + 3 * ws.length := by
  have h := State.frameWrites_txnOpen (s := s.frameCmd s.codes.dataWriteAutoinc) ws rfl
  simp only [State.frameCmd] at h
  simp [State.modeAndWrites, State.frameCmd, modeAndWritesEvents, h]

@[simp] theorem State.modeAndWrites_codes (s : State) (ws : List (BitVec 4 × Byte)) :
    (s.modeAndWrites ws).codes = s.codes := (s.modeAndWrites_block ws).2.2.2.2.2.2.2.2.1

/-- On a bus whose premise holds: the premise kept, the chip in auto-increment write mode, each byte at its address,
nothing else written. -/
theorem State.modeAndWrites_chip {s : State} (ws : List (BitVec 4 × Byte)) (h : s.framing = .idle) (hk : s.codes.Ok) :
    (s.modeAndWrites ws).framing = .idle ∧
    (∀ a, Memory.read (s.modeAndWrites ws).peer.dr a = lastWrite ws a (Memory.read s.peer.dr a)) ∧
    (s.modeAndWrites ws).peer.mode = modeWriteAutoinc ∧ (s.modeAndWrites ws).peer.dispOn = s.peer.dispOn ∧
    (s.modeAndWrites ws).peer.bright = s.peer.bright := by
  have hp : (s.frameCmd s.codes.dataWriteAutoinc).peer = { s.peer with mode := modeWriteAutoinc } :=
    State.frameCmd_peer (.dataMode .normal .autoInc 0b00) h hk
  have hf : (s.frameCmd s.codes.dataWriteAutoinc).framing = .idle := State.sendFrame_framing _ h
  obtain ⟨h1, h2, h3, h4⟩ := State.frameWrites_peer ws hf hk
  rw [hp] at h1 h2 h3 h4
  exact ⟨State.frameWrites_framing ws hf, h1, h2, h3, h4⟩

theorem State.modeAndWrites_wf {s : State} (ws : List (BitVec 4 × Byte)) (h : Memory.wf s.peer.dr) :
    Memory.wf (s.modeAndWrites ws).peer.dr :=
  State.frameWrites_wf ws (State.sendFrame_wf _ h)

/-- On a bus whose premise is broken nothing is known of the chip. -/
theorem State.frameWrites_broken {s : State} (ws : List (BitVec 4 × Byte)) (h : s.framing = .broken)
    (hp : ∃ n, s.peer = Peer.unknown n) :
    (s.frameWrites ws).framing = .broken ∧ ∃ n, (s.frameWrites ws).peer = Peer.unknown n := by
  induction ws generalizing s with
  | nil => exact ⟨h, hp⟩
  | cons w ws ih =>
    obtain ⟨h1, h2⟩ := State.sendFrame_broken [s.codes.addr w.1, w.2] h
    exact ih (s := s.frameWrite w.1 w.2) h1 ⟨_, h2⟩

theorem length_writesEvents (k : CommandBytes) (ws : List (BitVec 4 × Byte)) : (writesEvents k ws).length = 83 * ws.length := by
  induction ws with
  | nil => rfl
  | cons w ws ih => simp only [writesEvents, List.flatMap_cons, List.length_append, length_frameEvents] at ih ⊢; simp; omega

theorem length_modeAndWritesEvents (k : CommandBytes) (ws : List (BitVec 4 × Byte)) :
    (modeAndWritesEvents k ws).length = 43 + 83 * ws.length := by
  simp [modeAndWritesEvents, length_writesEvents]

theorem busyTime_writesEvents (k : CommandBytes) (ws : List (BitVec 4 × Byte)) :
    busyTime (writesEvents k ws) = 32 * ws.length * Config.tHalf := by
  induction ws with
  | nil => simp [writesEvents]
  | cons w ws ih =>
    simp only [writesEvents, List.flatMap_cons, busyTime_append, busyTime_frameEvents] at ih ⊢
    rw [ih]; simp only [List.length_cons, List.length_nil]; ring

theorem foldl_writesEvents (k : CommandBytes) (p : Pins) (ws : List (BitVec 4 × Byte)) :
    (writesEvents k ws).foldl Pins.apply p =
      match ws.getLast? with
      | none => p
      | some w => { clk := true, stb := true, dioOut := w.2.getLsbD 7, dioDir := .out } := by
  induction ws generalizing p with
  | nil => rfl
  | cons w ws ih =>
    have hf : (frameEvents [k.addr w.1, w.2]).foldl Pins.apply p =
        { clk := true, stb := true, dioOut := w.2.getLsbD 7, dioDir := .out } :=
      foldl_frameEvents p [k.addr w.1] w.2
    have h : writesEvents k (w :: ws) = frameEvents [k.addr w.1, w.2] ++ writesEvents k ws := rfl
    rw [h, List.foldl_append, hf, ih]
    cases ws with
    | nil => rfl
    | cons x ws => simp [List.getLast?_cons_cons]; split <;> simp_all

/-- After `setDigits` or `setLeds` strobe and clock are high and the data line is an output. -/
theorem foldl_modeAndWritesEvents (k : CommandBytes) (p : Pins) (ws : List (BitVec 4 × Byte)) :
    ∃ b, (modeAndWritesEvents k ws).foldl Pins.apply p = { clk := true, stb := true, dioOut := b, dioDir := .out } := by
  have hf : (frameEvents [k.dataWriteAutoinc]).foldl Pins.apply p =
      { clk := true, stb := true, dioOut := k.dataWriteAutoinc.getLsbD 7, dioDir := .out } :=
    foldl_frameEvents p [] _
  rw [modeAndWritesEvents, List.foldl_append, hf, foldl_writesEvents]
  split
  · exact ⟨_, rfl⟩
  · exact ⟨_, rfl⟩

/-- An observer outside a frame sees exactly the frames of the writes. -/
theorem see_writesEvents (k : CommandBytes) (w : Watch) (ws : List (BitVec 4 × Byte)) (h : w.inFrame = false ∧ w.bits = []) :
    ((writesEvents k ws).foldl Watch.see w).frames = w.frames ++ ws.map fun x => [k.addr x.1, x.2] := by
  induction ws generalizing w with
  | nil => simp [writesEvents]
  | cons x ws ih =>
    obtain ⟨b, hb⟩ := see_frameEvents w [k.addr x.1, x.2]
    have hs : writesEvents k (x :: ws) = frameEvents [k.addr x.1, x.2] ++ writesEvents k ws := rfl
    rw [hs, List.foldl_append, hb, ih _ ⟨rfl, rfl⟩]
    simp

/-- An observer sees the mode-select frame and then the frames of the writes. -/
theorem framesSeen_modeAndWritesEvents (k : CommandBytes) (ws : List (BitVec 4 × Byte)) :
    framesSeen (modeAndWritesEvents k ws) = [k.dataWriteAutoinc] :: ws.map fun x => [k.addr x.1, x.2] := by
  obtain ⟨b, hb⟩ := see_frameEvents ⟨false, false, false, [], []⟩ [k.dataWriteAutoinc]
  rw [framesSeen, modeAndWritesEvents, List.foldl_append, hb, see_writesEvents _ _ _ ⟨rfl, rfl⟩]
  rfl

/-! ## What they leave alone, and two rounds after a command frame -/

@[simp] theorem Work.afterBytes_raw (w : Work) (bs : List Byte) : (w.afterBytes bs).raw = w.raw := by
  unfold Work.afterBytes; split <;> rfl
@[simp] theorem Work.afterBytes_acc (w : Work) (bs : List Byte) : (w.afterBytes bs).acc = w.acc := by
  unfold Work.afterBytes; split <;> rfl
@[simp] theorem Work.afterBytes_ksel (w : Work) (bs : List Byte) : (w.afterBytes bs).ksel = w.ksel := by
  unfold Work.afterBytes; split <;> rfl

/-- One frame sent with none open writes only what a bus operation may write. -/
theorem State.sendFrame_onlyBus {s : State} (bs : List Byte) (h : s.txnOpen = false) : s.OnlyBus (s.sendFrame bs) :=
  ⟨rfl, by simp [h], rfl, by simp, by simp, by simp, rfl, rfl, rfl⟩

theorem State.OnlyBus.trans {s t u : State} (h : s.OnlyBus t) (g : t.OnlyBus u) : s.OnlyBus u :=
  ⟨g.1.trans h.1, g.2.trans h.2, g.3.trans h.3, g.4.trans h.4, g.5.trans h.5, g.6.trans h.6, g.7.trans h.7,
    g.8.trans h.8, g.9.trans h.9⟩

theorem State.OnlyBus.withRet {s t : State} (h : s.OnlyBus t) (r : Ret) : s.OnlyBus (t.withRet r) :=
  ⟨h.1, h.2, h.3, h.4, h.5, h.6, h.7, h.8, h.9⟩

theorem State.frameWrites_onlyBus {s : State} (ws : List (BitVec 4 × Byte)) (h : s.txnOpen = false) :
    s.OnlyBus (s.frameWrites ws) := by
  induction ws generalizing s with
  | nil => exact ⟨rfl, rfl, rfl, rfl, rfl, rfl, rfl, rfl, rfl⟩
  | cons w ws ih => exact (State.sendFrame_onlyBus _ h).trans (ih (s := s.frameWrite w.1 w.2) rfl)

theorem State.modeAndWrites_onlyBus {s : State} (ws : List (BitVec 4 × Byte)) (h : s.txnOpen = false) :
    s.OnlyBus (s.modeAndWrites ws) :=
  (State.sendFrame_onlyBus _ h).trans (State.frameWrites_onlyBus (s := s.frameCmd s.codes.dataWriteAutoinc) ws rfl)

theorem State.modeAndWrites_released (s : State) (ws : List (BitVec 4 × Byte)) :
    (s.modeAndWrites ws).pins.Released := by
  obtain ⟨b, hb⟩ := foldl_modeAndWritesEvents s.codes s.pins ws
  rw [(s.modeAndWrites_block ws).2.1, hb]
  exact ⟨rfl, rfl, rfl⟩

/-- A command frame and then two rounds of mode select and writes: the shape of `configureDisplay` (R94). -/
def State.twoRounds (s : State) (c : Command) (ws vs : List (BitVec 4 × Byte)) : State :=
  ((s.frameCmd (encodeCommand s.codes c)).modeAndWrites ws).modeAndWrites vs

theorem State.twoRounds_trace (s : State) (c : Command) (ws vs : List (BitVec 4 × Byte)) :
    (s.twoRounds c ws vs).trace =
      s.trace ++ (frameEvents [encodeCommand s.codes c] ++ modeAndWritesEvents s.codes ws ++ modeAndWritesEvents s.codes vs) := by
  rw [State.twoRounds, (State.modeAndWrites_block _ vs).1, (State.modeAndWrites_block _ ws).1, State.frameCmd,
    State.sendFrame_trace, State.modeAndWrites_codes, State.sendFrame_codes]
  simp only [List.append_assoc]

theorem State.twoRounds_onlyBus {s : State} (c : Command) (ws vs : List (BitVec 4 × Byte)) (h : s.txnOpen = false) :
    s.OnlyBus (s.twoRounds c ws vs) := by
  refine ((State.sendFrame_onlyBus _ h).trans (State.modeAndWrites_onlyBus ws rfl)).trans
    (State.modeAndWrites_onlyBus vs ?_)
  exact (State.modeAndWrites_block _ ws).2.2.1

/-- On a bus whose premise holds: the command obeyed, then the bytes of both rounds at their addresses. -/
theorem State.twoRounds_chip {s : State} (c : Command) (ws vs : List (BitVec 4 × Byte)) (h : s.framing = .idle)
    (hk : s.codes.Ok) :
    (s.twoRounds c ws vs).framing = .idle ∧
    (∀ a, Memory.read (s.twoRounds c ws vs).peer.dr a =
      lastWrite vs a (lastWrite ws a (Memory.read s.peer.dr a))) ∧
    (s.twoRounds c ws vs).peer.mode = modeWriteAutoinc ∧
    (s.twoRounds c ws vs).peer.dispOn = (s.peer.command (s.freeCount + 2) c).dispOn ∧
    (s.twoRounds c ws vs).peer.bright = (s.peer.command (s.freeCount + 2) c).bright := by
  have hp := State.frameCmd_peer c h hk
  obtain ⟨c1, c2, _, c4, c5⟩ :=
    State.modeAndWrites_chip ws (s := s.frameCmd (encodeCommand s.codes c)) (State.sendFrame_framing _ h) hk
  obtain ⟨g1, g2, g3, g4, g5⟩ := State.modeAndWrites_chip vs c1 ((State.modeAndWrites_codes _ ws).symm ▸ hk)
  refine ⟨g1, fun a => ?_, g3, by rw [State.twoRounds, g4, c4, hp], by rw [State.twoRounds, g5, c5, hp]⟩
  rw [State.twoRounds, g2, c2, hp, Peer.command_dr]

end Sys2Proof.Machine
end

