-- ==== Sys2Proof/Laws/Operands.lean ====
section
/-! SUPPORT. Operand forms: the guards against WellFormed, the writes of digits and LEDs address by address, the laws of the Segment Encoding Table and of the two paths over it. -/

namespace Sys2Proof.Machine

/-! ## Guards -/

/-- A guarded outcome is the next state exactly when the guard passes. -/
theorem guarded_next_iff {g : Option Refusal} {t u : State} :
    guarded g t = .next u ↔ g = none ∧ t = u := by
  cases g <;> simp [guarded]

theorem guarded_refused_iff {g : Option Refusal} {t : State} {r : Refusal} :
    guarded g t = .refused r ↔ g = some r := by
  cases g <;> simp [guarded]

theorem State.busGuard_none_iff {s : State} : s.busGuard = none ↔ s.inited = true := by
  cases h : s.inited <;> simp [State.busGuard, h]

theorem State.protocolGuard_none_iff {s : State} :
    s.protocolGuard = none ↔ s.inited = true ∧ s.txnOpen = false := by
  cases h : s.inited <;> cases h' : s.txnOpen <;> simp [State.protocolGuard, State.busGuard, h, h']

theorem State.deinitGuard_none_iff {s : State} :
    s.deinitGuard = none ↔ s.inited = true ∧ s.txnOpen = false := by
  cases h : s.inited <;> cases h' : s.txnOpen <;> simp [State.deinitGuard, State.busGuard, h, h']

theorem State.initGuard_none_iff {s : State} : s.initGuard = none ↔ s.inited = false := by
  cases h : s.inited <;> simp [State.initGuard, h]

/-- The machine's check of a multi-digit call is the check of WellFormed. -/
theorem digitsGuard_none_iff {start count len : Nat} :
    digitsGuard start count len = none ↔ digitsInRange start count len = true := by
  simp only [digitsGuard, digitsInRange]
  by_cases h : count ≤ len <;> by_cases h' : start < Config.nDigits <;>
    by_cases h'' : start + count ≤ Config.nDigits <;> simp [h, h', h'']

theorem digitsInRange_iff {start count len : Nat} :
    digitsInRange start count len = true ↔ count ≤ len ∧ start ≤ 7 ∧ start + count ≤ 8 := by
  simp [digitsInRange, and_assoc, Nat.lt_succ_iff]

theorem brightnessGuard_none_iff {b : Nat} : brightnessGuard b = none ↔ b ≤ 7 := by
  simp [brightnessGuard]

theorem or_none_iff {a b : Option Refusal} : a.or b = none ↔ a = none ∧ b = none := by
  cases a <;> simp

/-! ## The writes of digits and LEDs -/

@[simp] theorem length_digitWrites (ps : List Byte) (start : Nat) : (digitWrites ps start).length = ps.length := by
  simp [digitWrites]

@[simp] theorem length_ledWrites (m : Byte) : (ledWrites m).length = 8 := by simp [ledWrites]

theorem digitWrites_cons (v : Byte) (ps : List Byte) (start : Nat) :
    digitWrites (v :: ps) start = (digitAddr start, v) :: digitWrites ps (start + 1) := by
  simp [digitWrites, List.zipIdx_cons]

theorem toNat_digitAddr {p : Nat} (h : p < 8) : (digitAddr p).toNat = 2 * p := by
  simp [digitAddr]; omega

theorem toNat_ledAddr {i : Nat} (h : i < 8) : (ledAddr i).toNat = 2 * i + 1 := by
  simp [ledAddr]; omega

/-- What the digit writes leave at an address that is no digit's they write. -/
theorem lastWrite_digitWrites_other (ps : List Byte) (start a : Nat) (old : Option Byte) (h : start + ps.length ≤ 8)
    (ha : ∀ i < ps.length, a ≠ 2 * (start + i)) : lastWrite (digitWrites ps start) a old = old := by
  induction ps generalizing start old with
  | nil => rfl
  | cons v ps ih =>
    simp only [List.length_cons] at h ha
    have h0 : a ≠ 2 * start := by simpa using ha 0 (by omega)
    rw [digitWrites_cons, lastWrite, List.foldl_cons, toNat_digitAddr (by omega), if_neg h0]
    exact ih (start + 1) old (by omega) fun i hi => by
      have := ha (i + 1) (by omega)
      rwa [← Nat.add_assoc, Nat.add_right_comm] at this

/-- What they leave at the address of the digit of element `i`: that element. -/
theorem lastWrite_digitWrites_digit (ps : List Byte) (start i : Nat) (old : Option Byte) (h : start + ps.length ≤ 8)
    (hi : i < ps.length) : lastWrite (digitWrites ps start) (2 * (start + i)) old = ps[i]? := by
  induction ps generalizing start i old with
  | nil => simp at hi
  | cons v ps ih =>
    simp only [List.length_cons] at h hi
    rw [digitWrites_cons, lastWrite, List.foldl_cons, toNat_digitAddr (by omega)]
    cases i with
    | zero =>
      simp only [Nat.add_zero, if_pos, List.getElem?_cons_zero]
      exact lastWrite_digitWrites_other ps (start + 1) _ _ (by omega) fun j hj => by omega
    | succ i =>
      rw [if_neg (by omega), List.getElem?_cons_succ, ← ih (start + 1) i old (by omega) (by omega)]
      rw [show 2 * (start + (i + 1)) = 2 * (start + 1 + i) by omega]
      rfl

theorem ledByte_eq (b : Bool) : ledByte b = if b then 0x01 else 0x00 := by cases b <;> rfl

/-- What the LED writes leave: LED `i`'s byte at `2i + 1`, nothing at an even address. -/
theorem lastWrite_ledWrites (m : Byte) (a : Nat) (old : Option Byte) :
    lastWrite (ledWrites m) a old =
      if a % 2 = 1 ∧ a < 16 then some (ledByte (m.getLsbD (a / 2))) else old := by
  have hw : ledWrites m = (List.range 8).map fun i => (ledAddr i, ledByte (m.getLsbD i)) := rfl
  by_cases h : a % 2 = 1 ∧ a < 16
  · obtain ⟨k, hk⟩ : ∃ k, a = 2 * k + 1 := ⟨a / 2, by omega⟩
    subst hk
    have hk8 : k < 8 := by omega
    rw [if_pos h, show (2 * k + 1) / 2 = k by omega]
    interval_cases k <;> simp [hw, lastWrite, List.range_succ, ledAddr]
  · rw [if_neg h]
    have hn : ∀ i < 8, a ≠ (ledAddr i).toNat := fun i hi => by rw [toNat_ledAddr hi]; omega
    simp [hw, lastWrite, List.range_succ, hn]

/-- The events of the digit writes, element by element (R96). -/
theorem writesEvents_digitWrites (k : CommandBytes) (ps : List Byte) (start : Nat) :
    writesEvents k (digitWrites ps start) = (List.range ps.length).flatMap fun i =>
      frameEvents [k.addr (BitVec.ofNat 4 (2 * (start + i))), ps.getD i 0] := by
  induction ps generalizing start with
  | nil => rfl
  | cons v ps ih =>
    rw [digitWrites_cons]
    simp only [writesEvents, List.flatMap_cons] at ih ⊢
    rw [ih, List.length_cons, List.range_succ_eq_map, List.flatMap_cons, List.flatMap_map]
    simp [digitAddr, Nat.add_assoc, Nat.add_comm 1]

/-- The events of the LED writes, LED by LED (R97). -/
theorem writesEvents_ledWrites (k : CommandBytes) (m : Byte) :
    writesEvents k (ledWrites m) = (List.range 8).flatMap fun i =>
      frameEvents [k.addr (BitVec.ofNat 4 (2 * i + 1)), if m.getLsbD i then 0x01 else 0x00] := by
  simp only [writesEvents, ledWrites, List.flatMap_map, ledAddr, ledByte_eq]

/-! ## The Segment Encoding Table -/

theorem foldCase_lt : ∀ c : BitVec 7, supportedCode c = true → (foldCase c).toNat < 127 := by decide

theorem foldCase_distinct : ∀ c : BitVec 7, distinctCode c = true → foldCase c = c := by decide

/-- An unsupported code is the sentinel (R110). -/
theorem seg_unsupported {c : BitVec 7} (h : supportedCode c = false) : seg c = 0x80 := by simp [seg, h]

/-- Space is blank (R109). -/
theorem seg_space : seg 0x20 = 0x00 := by
  have h : supportedCode 0x20 = true := by decide
  rw [seg, if_pos h, if_pos rfl]

/-- A supported code other than space is a pattern from 1 to 127. -/
theorem seg_range {c : BitVec 7} (h : supportedCode c = true) (h' : c ≠ 0x20) :
    (seg c).toNat = (Config.segSpread (Fin.ofNat 127 (foldCase c).toNat)).val + 1 := by
  have := (Config.segSpread (Fin.ofNat 127 (foldCase c).toNat)).isLt
  simp only [seg, h, h', if_true, if_false, BitVec.toNat_ofNat]
  omega

/-- The table never contributes the decimal point to a supported code (R109). -/
theorem seg_supported_dp {c : BitVec 7} (h : supportedCode c = true) : (seg c).getLsbD 7 = false := by
  by_cases h' : c = 0x20
  · subst h'; rw [seg_space]; rfl
  · have hr := seg_range h h'
    have := (Config.segSpread (Fin.ofNat 127 (foldCase c).toNat)).isLt
    rw [BitVec.getLsbD, Nat.testBit_lt_two_pow (by omega)]

/-- Over the 60 distinct codes the table is one to one (R112). -/
theorem seg_injective {c d : BitVec 7} (hc : distinctCode c = true) (hd : distinctCode d = true)
    (h : seg c = seg d) : c = d := by
  have sc : supportedCode c = true := by simp [distinctCode] at hc; exact hc.1
  have sd : supportedCode d = true := by simp [distinctCode] at hd; exact hd.1
  by_cases h1 : c = 0x20 <;> by_cases h2 : d = 0x20
  · rw [h1, h2]
  · have := seg_range sd h2
    rw [← h, h1, seg_space] at this
    simp at this
  · have := seg_range sc h1
    rw [h, h2, seg_space] at this
    simp at this
  · have e : (Config.segSpread (Fin.ofNat 127 (foldCase c).toNat)).val =
        (Config.segSpread (Fin.ofNat 127 (foldCase d).toNat)).val := by
      have a := seg_range sc h1
      have b := seg_range sd h2
      rw [h] at a
      omega
    have e' := Config.segSpread.injective (Fin.ext e)
    have lc := foldCase_lt c sc
    have ld := foldCase_lt d sd
    rw [foldCase_distinct c hc] at e' lc
    rw [foldCase_distinct d hd] at e' ld
    have := congrArg Fin.val e'
    simp only [Fin.ofNat] at this
    apply BitVec.eq_of_toNat_eq
    rwa [Nat.mod_eq_of_lt lc, Nat.mod_eq_of_lt ld] at this

/-- An uppercase letter and its lowercase letter share a pattern (R111). -/
theorem seg_case_merge (k : Nat) (h : k ≤ 25) : seg (0x41 + BitVec.ofNat 7 k) = seg (0x61 + BitVec.ofNat 7 k) := by
  have e : ∀ k : Fin 26, supportedCode (0x41 + BitVec.ofNat 7 k) = true ∧
      supportedCode (0x61 + BitVec.ofNat 7 k) = true ∧ (0x41 + BitVec.ofNat 7 k : BitVec 7) ≠ 0x20 ∧
      (0x61 + BitVec.ofNat 7 k : BitVec 7) ≠ 0x20 ∧
      foldCase (0x41 + BitVec.ofNat 7 k) = foldCase (0x61 + BitVec.ofNat 7 k) := by decide
  obtain ⟨h1, h2, h3, h4, h5⟩ := e ⟨k, by omega⟩
  simp only at h1 h2 h3 h4 h5
  rw [seg, seg, if_pos h1, if_pos h2, if_neg h3, if_neg h4, h5]

/-! ## The hex and character paths -/

@[simp] theorem getLsbD_decimalPoint (v : Byte) (j : Nat) :
    (decimalPoint v).getLsbD j = (decide (j = 7) && v.getLsbD 7) := by
  have h : ∀ (v : Byte) (j : Fin 8), (decimalPoint v).getLsbD j = (decide (j.val = 7) && v.getLsbD 7) := by decide
  by_cases hj : j < 8
  · exact h v ⟨j, hj⟩
  · have : j ≠ 7 := by omega
    simp [this, BitVec.getLsbD_of_ge _ _ (by omega : 8 ≤ j)]

end Sys2Proof.Machine
end

