-- ==== Sys2Proof/Laws/KeyScan.lean ====
section
/-! SUPPORT. The reorder bit by bit: which raw bit each mask bit is (R123, R125). -/

namespace Sys2Proof.Machine

theorem getLsbD_shiftIn (acc : Mask) (b : Bool) (j : Nat) :
    (shiftIn acc b).getLsbD j = (decide (j < 32) && if j = 0 then b else acc.getLsbD (j - 1)) := by
  rcases j with _ | j
  · simp [shiftIn]
  · by_cases h : j + 1 < 32
    · simp [shiftIn, h, -BitVec.getLsbD_eq_getElem]
    · simp [shiftIn, h]

/-- Bit `j` of the accumulator is the `j`-th bit from the end of those shifted in. -/
theorem getLsbD_foldl_shiftIn (bits : List Bool) (j : Nat) (h : bits.length ≤ 32) :
    (bits.foldl shiftIn 0).getLsbD j = bits.reverse.getD j false := by
  induction bits using List.reverseRecOn generalizing j with
  | nil => simp
  | append_singleton bits b ih =>
    rw [List.length_append, List.length_singleton] at h
    rw [List.foldl_append, List.foldl_cons, List.foldl_nil, getLsbD_shiftIn, List.reverse_append]
    rcases j with _ | j
    · simp
    · have ih := ih j (by omega)
      by_cases hj : j + 1 < 32
      · simpa [hj] using ih
      · have : bits.length ≤ j := by omega
        simp [hj, this]

theorem length_scanOrder (nf : NibbleFirst) (raw : Vector Byte 4) : (scanOrder nf raw).length = 24 := by
  cases nf <;> rfl

/-- The mask bit the bit of key line `k` in a nibble of raw byte `i` lands at (R123). -/
def keyIndex (nf : NibbleFirst) (i : Nat) (high : Bool) (k : Nat) : Nat :=
  8 * (2 - k) + 2 * i + match nf with
    | .low => if high then 0 else 1
    | .high => if high then 1 else 0

/-- The closed form of the reorder (R123). -/
theorem getLsbD_decodeKeysWith (nf : NibbleFirst) (raw : Vector Byte 4) (i : Fin 4) (high : Bool) (k : Nat)
    (hk : k < 3) :
    (decodeKeysWith nf raw).getLsbD (keyIndex nf i high k) = raw[i].getLsbD ((if high then 4 else 0) + k) := by
  rw [decodeKeysWith, getLsbD_foldl_shiftIn _ _ (by rw [length_scanOrder]; omega)]
  cases nf <;> cases high <;> fin_cases i <;> interval_cases k <;> rfl

/-- Mask bits from 24 up are 0 (R125). -/
theorem getLsbD_decodeKeysWith_high (nf : NibbleFirst) (raw : Vector Byte 4) (j : Nat) (h : 24 ≤ j) :
    (decodeKeysWith nf raw).getLsbD j = false := by
  rw [decodeKeysWith, getLsbD_foldl_shiftIn _ _ (by rw [length_scanOrder]; omega)]
  have : (scanOrder nf raw).reverse.length ≤ j := by rw [List.length_reverse, length_scanOrder]; omega
  rw [List.getD_eq_getElem?_getD, List.getElem?_eq_none this, Option.getD_none]

/-- The vector `scanKeys` decodes is the list a `readBytes(4)` in its place would return (R121). -/
theorem State.rawKeys_toList (s : State) : s.rawKeys.toList = s.keysAsked.received 4 := by
  apply List.ext_getElem
  · simp [State.received]
  · intro i h1 h2
    simp [State.received] at h2
    simp [State.rawKeys, State.received]
    rfl

end Sys2Proof.Machine
end

