-- ==== Sys2Proof/Laws/Debounce.lean ====
section
/-! SUPPORT. One lemma per component of the Debounce State's update, and that it keeps the state's invariant (R16). -/

namespace Sys2Proof.Machine

@[simp] theorem Debounce.update_cnt (d : Debounce) (m : Mask) (i : Fin 24) :
    (d.update m).cnt[i] = (d.key m i).1 := by simp [Debounce.update]

@[simp] theorem Debounce.update_stable (d : Debounce) (m : Mask) (i : Fin 24) :
    (d.update m).stable.getLsbD i = (d.key m i).2 := by
  simp [Debounce.update, show i.val < 32 by omega]

theorem Debounce.update_stable_high (d : Debounce) (m : Mask) (i : Nat) (h : 24 ≤ i) :
    (d.update m).stable.getLsbD i = d.stable.getLsbD i := by
  by_cases h' : i < 32
  · simp [Debounce.update, h', Nat.not_lt.mpr h]
  · simp [BitVec.getLsbD_of_ge _ _ (Nat.not_lt.mp h')]

/-- The bits of a key's invariant (R16) after any sample. -/
theorem debounceKey_ok : ∀ (c : BitVec 3) (st sample : Bool), c ≤ 4 →
    (debounceKey c st sample).1 ≤ 4 ∧ ((debounceKey c st sample).1 = 4 → (c = 4 → st = true) →
      (debounceKey c st sample).2 = true) ∧
    ((debounceKey c st sample).1 = 0 → (c = 0 → st = false) → (debounceKey c st sample).2 = false) := by decide

theorem Debounce.update_ok {d : Debounce} (m : Mask) (h : d.Ok) : (d.update m).Ok := by
  refine ⟨fun i => ?_, fun i hi => ?_⟩
  · obtain ⟨h1, h2, h3⟩ := h.1 i
    obtain ⟨g1, g2, g3⟩ := debounceKey_ok d.cnt[i] (d.stable.getLsbD i) (m.getLsbD i) h1
    rw [Debounce.update_cnt, Debounce.update_stable]
    exact ⟨g1, fun e => g2 e h2, fun e => g3 e h3⟩
  · rw [Debounce.update_stable_high d m i hi]
    exact h.2 i hi

theorem Debounce.zero_ok : Debounce.zero.Ok := by
  refine ⟨fun i => ?_, fun i _ => ?_⟩ <;> simp [Debounce.zero]

/-- What a pressed sample does to a key (R137). -/
theorem debounceKey_pressed : ∀ (c : BitVec 3) (st : Bool),
    (c.toNat < 4 → (debounceKey c st true).1.toNat = c.toNat + 1) ∧ (4 ≤ c.toNat → (debounceKey c st true).1 = c) ∧
    ((debounceKey c st true).1 = 4 → (debounceKey c st true).2 = true) ∧
    ((debounceKey c st true).1 ≠ 4 → (debounceKey c st true).2 = st) := by decide

/-- What a released sample does to a key (R137). -/
theorem debounceKey_released : ∀ (c : BitVec 3) (st : Bool),
    (0 < c.toNat → (debounceKey c st false).1.toNat = c.toNat - 1) ∧ (c.toNat = 0 → (debounceKey c st false).1 = c) ∧
    ((debounceKey c st false).1 = 0 → (debounceKey c st false).2 = false) ∧
    ((debounceKey c st false).1 ≠ 0 → (debounceKey c st false).2 = st) := by decide

/-- A key's counter and stable bit. -/
def Debounce.pair (d : Debounce) (i : Fin 24) : BitVec 3 × Bool := (d.cnt[i], d.stable.getLsbD i)

/-- A sample moves a key by its own bit alone (R135). -/
theorem Debounce.pair_update (d : Debounce) (m : Mask) (i : Fin 24) :
    (d.update m).pair i = debounceKey (d.pair i).1 (d.pair i).2 (m.getLsbD i) := by
  simp only [Debounce.pair, Debounce.update_cnt, Debounce.update_stable, Debounce.key]

/-- The same sample again and again moves a key by the same rule as often. -/
theorem Debounce.pair_foldl (pressed : Bool) (i : Fin 24) (ms : List Mask) (d : Debounce)
    (h : ∀ m ∈ ms, m.getLsbD i = pressed) :
    (ms.foldl Debounce.update d).pair i =
      (fun q : BitVec 3 × Bool => debounceKey q.1 q.2 pressed)^[ms.length] (d.pair i) := by
  induction ms generalizing d with
  | nil => rfl
  | cons m ms ih =>
    rw [List.foldl_cons, ih _ (fun x hx => h x (List.mem_cons_of_mem _ hx)), Debounce.pair_update,
      h m List.mem_cons_self]
    rfl

end Sys2Proof.Machine
end

