-- ==== Sys2Proof/Laws/Exec.lean ====
section
/-! SUPPORT. What an instruction and a step can do, said once: when each runs, and that every next state is reached by the few shared operations, so that an invariant need only be shown of those. -/

namespace Sys2Proof.Machine

/-- A predicate that every shared operation of the bus keeps while the handle is initialised. -/
structure BusClosed (P : State → Prop) : Prop where
  start : ∀ s, s.inited = true → P s → P s.startTxn
  send  : ∀ s bs, s.inited = true → P s → P (s.sendBytes bs)
  recv  : ∀ s n, s.inited = true → P s → P (s.recvBytes n)
  stop  : ∀ s, s.inited = true → P s → P s.endTxn

/-- A predicate that every shared operation keeps. -/
structure Closed (P : State → Prop) : Prop extends BusClosed P where
  up       : ∀ s, s.inited = false → P s → P s.platformUp
  down     : ∀ s, s.inited = true → s.txnOpen = false → P s → P s.platformDown
  zeroed   : ∀ s, P s → P { s with debounce := Debounce.zero }
  sampled  : ∀ s m, P s → P { s with debounce := s.debounce.update m }
  chip     : ∀ s b, P s → P (s.chipFrame b)
  working  : ∀ s w, P s → P { s with work := w }
  returned : ∀ s r, P s → P (s.withRet r)

theorem BusClosed.sendFrame {P : State → Prop} (h : BusClosed P) {s : State} (bs : List Byte) (hi : s.inited = true)
    (hs : P s) : P (s.sendFrame bs) :=
  h.stop _ hi (h.send _ bs hi (h.start s hi hs))

theorem BusClosed.frameWrites {P : State → Prop} (h : BusClosed P) {s : State} (ws : List (BitVec 4 × Byte))
    (hi : s.inited = true) (hs : P s) : P (s.frameWrites ws) := by
  induction ws generalizing s with
  | nil => exact hs
  | cons w ws ih => exact ih (s := s.frameWrite w.1 w.2) hi (h.sendFrame _ hi hs)

theorem BusClosed.modeAndWrites {P : State → Prop} (h : BusClosed P) {s : State} (ws : List (BitVec 4 × Byte))
    (hi : s.inited = true) (hs : P s) : P (s.modeAndWrites ws) :=
  h.frameWrites ws (s := s.frameCmd s.codes.dataWriteAutoinc) hi (h.sendFrame _ hi hs)

theorem BusClosed.frameKeys {P : State → Prop} (h : BusClosed P) {s : State} (hi : s.inited = true) (hs : P s) :
    P s.frameKeys :=
  h.stop _ hi (h.recv _ _ hi (h.send _ _ hi (h.start s hi hs)))

theorem State.modeAndWrites_inited (s : State) (ws : List (BitVec 4 × Byte)) :
    (s.modeAndWrites ws).inited = s.inited := (s.modeAndWrites_block ws).2.2.2.1

/-- Whatever every shared operation keeps, every instruction keeps. -/
theorem exec_closed {P : State → Prop} (h : Closed P) {i : Instr} {s t : State} (he : exec i s = .next t) (hs : P s) :
    P t := by
  have bus : ∀ {g : Option Refusal} {u : State}, (g = none → s.inited = true) → guarded g u = .next t →
      (s.inited = true → P u) → P t := fun hg he hu => by
    obtain ⟨h1, rfl⟩ := guarded_next_iff.mp he
    exact hu (hg h1)
  have ig : s.busGuard = none → s.inited = true := State.busGuard_none_iff.mp
  have ip : s.protocolGuard = none → s.inited = true := fun e => (State.protocolGuard_none_iff.mp e).1
  have ipo : ∀ g, s.protocolGuard.or g = none → s.inited = true := fun g e => ip (or_none_iff.mp e).1
  have digits : ∀ ps start n, s.inited = true → P ((s.writeDigits ps start n).withRet .none) := fun ps start n hi =>
    h.returned _ _ (h.modeAndWrites _ hi hs)
  cases i with
  | startTransaction => exact bus ig he fun hi => h.returned _ _ (h.start s hi hs)
  | endTransaction => exact bus ig he fun hi => h.returned _ _ (h.stop s hi hs)
  | writeBytes bs => exact bus ig he fun hi => h.returned _ _ (h.send s bs hi hs)
  | readBytes n => exact bus ig he fun hi => h.returned _ _ (h.recv s n hi hs)
  | init =>
    obtain ⟨h1, rfl⟩ := guarded_next_iff.mp he
    exact h.returned _ _ (h.up s (State.initGuard_none_iff.mp h1) hs)
  | deinit =>
    obtain ⟨h1, rfl⟩ := guarded_next_iff.mp he
    obtain ⟨h2, h3⟩ := State.deinitGuard_none_iff.mp h1
    exact h.returned _ _ (h.down s h2 h3 hs)
  | configureDisplay b on =>
    refine bus (ipo _) he fun hi => h.returned _ _ (h.modeAndWrites _ ?_ (h.modeAndWrites _ hi (h.sendFrame _ hi hs)))
    rw [State.writeLeds, State.modeAndWrites_inited]
    exact hi
  | setDigit p pos => exact bus (ipo _) he (digits _ _ _)
  | setDigits ps start n => exact bus (ipo _) he (digits _ _ _)
  | setLeds m => exact bus ip he fun hi => h.returned _ _ (h.modeAndWrites _ hi hs)
  | setDigitHex v pos => exact bus (ipo _) he (digits _ _ _)
  | setDigitsHex vs start n => exact bus (ipo _) he (digits _ _ _)
  | setDigitsChar cs start n => exact bus (ipo _) he (digits _ _ _)
  | hexToPattern v => cases he; exact h.returned _ _ hs
  | charToPattern v => cases he; exact h.returned _ _ hs
  | scanKeys => exact bus ip he fun hi => h.returned _ _ (h.working _ _ (h.working _ _ (h.frameKeys hi hs)))
  | decodeKeys raw => cases he; exact h.returned _ _ (h.working _ _ hs)
  | debounceInit => cases he; exact h.returned _ _ (h.zeroed _ hs)
  | debounceUpdate m => cases he; exact h.returned _ _ (h.sampled _ _ hs)
  | cmdDataWriteAutoinc => cases he; exact h.chip _ _ hs
  | cmdDataWriteFixed => cases he; exact h.chip _ _ hs
  | cmdDataReadKeys => cases he; exact h.chip _ _ hs
  | cmdDisplay on br => cases he; exact h.chip _ _ hs
  | cmdAddr a => cases he; exact h.chip _ _ hs

/-- The row of a command, where there is one, has that command. -/
theorem command_of_instr {c : Command} {i : Instr} (h : c.instr = .ok i) : i.command = some c := by
  cases c with
  | dataMode t a x =>
    cases t <;> cases a <;> simp only [Command.instr] at h <;> (repeat' split at h) <;> cases h <;> subst_vars <;> rfl
  | display on br => cases h; rfl
  | addr a => cases h; rfl

/-- An instruction-byte row is its byte reaching the chip as a frame of its own. -/
theorem exec_of_command {i : Instr} {c : Command} (h : i.command = some c) (s : State) :
    exec i s = .next (s.chipFrame (encodeCommand s.codes c)) := by
  cases i <;> cases h <;> rfl

/-- A byte on the wire, a row's or not, reaches the chip as a frame of its own. -/
theorem step_wire {s : State} {b : Byte} {rest : List Request} (h : s.requests = .wire b :: rest) :
    step s = .next (State.chipFrame { s with requests := rest } b) := by
  have hp : s.popRequest = { s with requests := rest } := by rw [State.popRequest, h]; rfl
  cases hd : decode s.codes [b] with
  | error e => simp only [step, State.fetch, h, hd, hp, execOtherByte]
  | ok p =>
    obtain ⟨i, bs⟩ := p
    simp only [step, State.fetch, h, hd, hp]
    simp only [decode] at hd
    split at hd
    · cases hd
    · rename_i c hc
      split at hd
      · cases hd
      · rename_i j hj
        cases hd
        rw [exec_of_command (command_of_instr hj), ← encode_decodeCommand hc]

/-- What a step can do: nothing, where the caller makes no call; else run the instruction it fetched; else, where the
byte is no row's, let it reach the chip. -/
theorem step_next_cases {s t : State} (h : step s = .next t) :
    (s.requests = [] ∧ t = s) ∨ (∃ i, s.fetch = .instr i ∧ exec i s.popRequest = .next t) ∨
      ∃ b, s.fetch = .other b ∧ t = s.popRequest.chipFrame b := by
  unfold step at h
  split at h
  · rename_i hf
    refine .inl ⟨?_, by cases h; rfl⟩
    unfold State.fetch at hf
    split at hf
    · assumption
    · cases hf
    · split at hf <;> cases hf
  · rename_i i hf
    exact .inr (.inl ⟨i, hf, h⟩)
  · rename_i b hf
    cases h
    exact .inr (.inr ⟨b, hf, rfl⟩)

/-- Whatever every shared operation and the fetch keep, every step keeps. -/
theorem step_closed {P : State → Prop} (h : Closed P) (hp : ∀ s, P s → P s.popRequest) {s t : State}
    (hs : step s = .next t) (hP : P s) : P t := by
  rcases step_next_cases hs with ⟨_, rfl⟩ | ⟨i, _, he⟩ | ⟨b, _, rfl⟩
  · exact hP
  · exact exec_closed h he (hp s hP)
  · exact h.chip _ _ (hp s hP)

/-- The invariant of a state whose pins, frame and handle are as before. -/
theorem State.Inv.congr {s t : State} (h : s.Inv) (hp : t.pins = s.pins) (ho : t.txnOpen = s.txnOpen)
    (hi : t.inited = s.inited) (hf : t.framing = s.framing) (hd : t.debounce.Ok) (hm : Memory.wf t.peer.dr)
    (hk : t.codes = s.codes) : t.Inv := by
  refine ⟨hd, ?_, ?_, ?_, hm, hk ▸ h.codes⟩
  · have := h.lines
    rwa [State.LinesOk, ← hp, ← ho, ← hi] at this
  · have := h.window
    rwa [State.WindowOk, ← ho, ← hi] at this
  · have := h.framing
    rwa [State.FramingOk, ← ho, ← hf] at this

/-! ## Two runs side by side -/

/-- A relation between two states that every shared operation keeps, but for the reading ones. -/
structure Related (R : State → State → Prop) : Prop where
  inited   : ∀ {s u}, R s u → u.inited = s.inited
  txnOpen  : ∀ {s u}, R s u → u.txnOpen = s.txnOpen
  debounce : ∀ {s u}, R s u → u.debounce = s.debounce
  codes    : ∀ {s u}, R s u → u.codes = s.codes
  start    : ∀ {s u}, R s u → R s.startTxn u.startTxn
  send     : ∀ {s u} bs, R s u → R (s.sendBytes bs) (u.sendBytes bs)
  stop     : ∀ {s u}, R s u → R s.endTxn u.endTxn
  up       : ∀ {s u}, R s u → R s.platformUp u.platformUp
  down     : ∀ {s u}, R s u → R s.platformDown u.platformDown
  filter   : ∀ {s u} d, R s u → R { s with debounce := d } { u with debounce := d }
  chip     : ∀ {s u} b, R s u → R (s.chipFrame b) (u.chipFrame b)
  working  : ∀ {s u} (f : Work → Work), R s u → R { s with work := f s.work } { u with work := f u.work }
  returned : ∀ {s u} r, R s u → R (s.withRet r) (u.withRet r)

/-- The reading operations keep it too: both states hear the same answers. -/
structure Hearing (R : State → State → Prop) : Prop where
  answers : ∀ {s u} n, R s u → u.answers n = s.answers n
  recv    : ∀ {s u} n, R s u → R (s.recvBytes n) (u.recvBytes n)

theorem Related.sendFrame {R : State → State → Prop} (h : Related R) {s u : State} (bs : List Byte) (hr : R s u) :
    R (s.sendFrame bs) (u.sendFrame bs) := h.stop (h.send bs (h.start hr))

theorem Related.frameWrite {R : State → State → Prop} (h : Related R) {s u : State} (a : BitVec 4) (v : Byte)
    (hr : R s u) : R (s.frameWrite a v) (u.frameWrite a v) := by
  rw [State.frameWrite, State.frameWrite, h.codes hr]
  exact h.sendFrame _ hr

theorem Related.modeAndWrites {R : State → State → Prop} (h : Related R) {s u : State} (ws : List (BitVec 4 × Byte))
    (hr : R s u) : R (s.modeAndWrites ws) (u.modeAndWrites ws) := by
  have go : ∀ (ws : List (BitVec 4 × Byte)) {s u : State}, R s u → R (s.frameWrites ws) (u.frameWrites ws) := by
    intro ws
    induction ws with
    | nil => intro s u hr; exact hr
    | cons w ws ih => intro s u hr; exact ih (h.frameWrite w.1 w.2 hr)
  rw [State.modeAndWrites, State.modeAndWrites, h.codes hr]
  exact go ws (h.sendFrame _ hr)

/-- Related states run an instruction to related states; an instruction that reads needs both to hear the same. -/
theorem exec_related {R : State → State → Prop} (h : Related R) {i : Instr} {s t u : State}
    (hh : Hearing R ∨ i ≠ .scanKeys ∧ ∀ n, i ≠ .readBytes n) (he : exec i s = .next t) (hr : R s u) :
    ∃ v, exec i u = .next v ∧ R t v := by
  have bus : ∀ {g k : Option Refusal} {x y : State}, k = g → guarded g x = .next t → R x y →
      ∃ v, guarded k y = .next v ∧ R t v := fun hk hx hxy => by
    obtain ⟨h1, rfl⟩ := guarded_next_iff.mp hx
    exact ⟨_, guarded_next_iff.mpr ⟨hk.trans h1, rfl⟩, hxy⟩
  have gb : u.busGuard = s.busGuard := by rw [State.busGuard, State.busGuard, h.inited hr]
  have gp : u.protocolGuard = s.protocolGuard := by rw [State.protocolGuard, State.protocolGuard, gb, h.txnOpen hr]
  have gi : u.initGuard = s.initGuard := by rw [State.initGuard, State.initGuard, h.inited hr]
  have gd : u.deinitGuard = s.deinitGuard := by rw [State.deinitGuard, State.deinitGuard, gb, h.txnOpen hr]
  have gpo : ∀ g, u.protocolGuard.or g = s.protocolGuard.or g := fun g => by rw [gp]
  have digits : ∀ ps start n, R ((s.writeDigits ps start n).withRet .none) ((u.writeDigits ps start n).withRet .none) :=
    fun ps start n => h.returned _ (h.modeAndWrites _ hr)
  have chip : ∀ {b c : Byte}, .next (s.chipFrame b) = (.next t : Host.Outcome State Fault Refusal) → c = b →
      ∃ v, .next (u.chipFrame c) = (.next v : Host.Outcome State Fault Refusal) ∧ R t v := fun he hc => by
    cases he
    rw [hc]
    exact ⟨_, rfl, h.chip _ hr⟩
  cases i with
  | startTransaction => exact bus gb he (h.returned _ (h.start hr))
  | endTransaction => exact bus gb he (h.returned _ (h.stop hr))
  | writeBytes bs => exact bus gb he (h.returned _ (h.send bs hr))
  | readBytes n =>
    rcases hh with hh | hh
    · have e : u.received n = s.received n := by rw [State.received, State.received, hh.answers _ hr]
      refine bus gb he ?_
      rw [e]
      exact h.returned _ (hh.recv n hr)
    · exact absurd rfl (hh.2 n)
  | init => exact bus gi he (h.returned _ (h.up hr))
  | deinit => exact bus gd he (h.returned _ (h.down hr))
  | configureDisplay b on =>
    refine bus (gpo _) he (h.returned _ (h.modeAndWrites _ (h.modeAndWrites _ ?_)))
    rw [h.codes hr]
    exact h.sendFrame _ hr
  | setDigit p pos => exact bus (gpo _) he (digits _ _ _)
  | setDigits ps start n => exact bus (gpo _) he (digits _ _ _)
  | setLeds m => exact bus gp he (h.returned _ (h.modeAndWrites _ hr))
  | setDigitHex v pos => exact bus (gpo _) he (digits _ _ _)
  | setDigitsHex vs start n => exact bus (gpo _) he (digits _ _ _)
  | setDigitsChar cs start n => exact bus (gpo _) he (digits _ _ _)
  | hexToPattern v => cases he; exact ⟨_, rfl, h.returned _ hr⟩
  | charToPattern v => cases he; exact ⟨_, rfl, h.returned _ hr⟩
  | scanKeys =>
    rcases hh with hh | hh
    · have ha : R s.keysAsked u.keysAsked := by
        rw [State.keysAsked, State.keysAsked, h.codes hr]
        exact h.send _ (h.start hr)
      have e : u.rawKeys = s.rawKeys := by
        simp only [State.rawKeys, State.received, hh.answers _ ha]
      have hk : R s.frameKeys u.frameKeys := h.stop (hh.recv _ ha)
      refine bus gp he (h.returned (.mask (decodeRaw s.rawKeys)) ?_ |> fun x => by rw [e]; exact x)
      exact h.working (fun w => { w with acc := decodeRaw s.rawKeys, ksel := 2 })
        (h.working (fun w => { w with raw := s.rawKeys }) hk)
    · exact absurd rfl hh.1
  | decodeKeys raw =>
    cases he
    exact ⟨_, rfl, h.returned _ (h.working (fun w => { w with acc := decodeRaw raw, ksel := 2 }) hr)⟩
  | debounceInit => cases he; exact ⟨_, rfl, h.returned _ (h.filter _ hr)⟩
  | debounceUpdate m =>
    cases he
    refine ⟨_, rfl, ?_⟩
    rw [h.debounce hr]
    exact h.returned _ (h.filter _ hr)
  | cmdDataWriteAutoinc => exact chip he (by rw [h.codes hr])
  | cmdDataWriteFixed => exact chip he (by rw [h.codes hr])
  | cmdDataReadKeys => exact chip he (by rw [h.codes hr])
  | cmdDisplay on br => exact chip he (by rw [h.codes hr])
  | cmdAddr a => exact chip he (by rw [h.codes hr])

end Sys2Proof.Machine
end

