-- ==== Sys2Proof/Laws/PerInstr.lean ====
section
/-! SUPPORT. A statement about every instruction as syntax, one lemma a constructor: its encoding, where it has one, is one byte that the chip reads as the instruction's own command. -/

namespace Sys2Proof.Laws.ChipReads

/-- The encoding of `i`, where there is one, is one byte, and the chip's decoder reads it as the command of `i`,
whatever distinct bytes the parameters are. -/
def Statement (i : Instr) : Prop :=
  ∀ (k : CommandBytes) bs, k.Ok → encode k i = some bs →
    ∃ b c, bs = [b] ∧ i.command = some c ∧ decodeCommand k b = .ok c

theorem of_command {i : Instr} : Statement i := fun k bs hk h => by
  unfold encode at h
  cases hc : i.command with
  | none => rw [hc] at h; cases h
  | some c => rw [hc] at h; cases h; exact ⟨_, c, rfl, rfl, Machine.decodeCommand_encode hk c⟩

theorem startTransaction : Statement .startTransaction := of_command
theorem endTransaction : Statement .endTransaction := of_command
theorem writeBytes (bytes : List Byte) : Statement (.writeBytes bytes) := of_command
theorem readBytes (count : Nat) : Statement (.readBytes count) := of_command
theorem init : Statement .init := of_command
theorem deinit : Statement .deinit := of_command
theorem configureDisplay (brightness : Nat) (on : Bool) : Statement (.configureDisplay brightness on) := of_command
theorem setDigit (pattern : Byte) (position : Nat) : Statement (.setDigit pattern position) := of_command
theorem setDigits (patterns : List Byte) (startPosition count : Nat) :
    Statement (.setDigits patterns startPosition count) := of_command
theorem setLeds (bitmask : Byte) : Statement (.setLeds bitmask) := of_command
theorem setDigitHex (value : Byte) (position : Nat) : Statement (.setDigitHex value position) := of_command
theorem setDigitsHex (values : List Byte) (startPosition count : Nat) :
    Statement (.setDigitsHex values startPosition count) := of_command
theorem setDigitsChar (chars : List Byte) (startPosition count : Nat) :
    Statement (.setDigitsChar chars startPosition count) := of_command
theorem hexToPattern (value : Byte) : Statement (.hexToPattern value) := of_command
theorem charToPattern (ch : Byte) : Statement (.charToPattern ch) := of_command
theorem scanKeys : Statement .scanKeys := of_command
theorem decodeKeys (raw : Vector Byte 4) : Statement (.decodeKeys raw) := of_command
theorem debounceInit : Statement .debounceInit := of_command
theorem debounceUpdate (rawMask : Mask) : Statement (.debounceUpdate rawMask) := of_command
theorem cmdDataWriteAutoinc : Statement .cmdDataWriteAutoinc := of_command
theorem cmdDataWriteFixed : Statement .cmdDataWriteFixed := of_command
theorem cmdDataReadKeys : Statement .cmdDataReadKeys := of_command
theorem cmdDisplay (on : Bool) (br : BitVec 3) : Statement (.cmdDisplay on br) := of_command
theorem cmdAddr (a : BitVec 4) : Statement (.cmdAddr a) := of_command

end Sys2Proof.Laws.ChipReads
end

