-- ==== Sys2Proof/Tests/Slice0.lean ====
section
/-! SUPPORT. Tests of single steps against spec/95_test_vectors.md and the words of spec/30_encoding.md, a smoke test of WellFormed, and for every statement with hypotheses a witness that meets them. -/

open Sys2Proof Sys2Proof.Machine

namespace Sys2Proof.Tests

/-! ## States to start from -/

/-- Sixteen display registers, blank but for those `f` names. -/
def registers (f : Nat → Byte) : Memory := (List.range 16).map fun a => (a, f a)

/-- After `init`: strobe and clock high, the bus idle; a chip whose registers happen to be blank. -/
def ready : State :=
  { State.reset with
    inited := true, pins := { clk := true, stb := true, dioOut := false, dioDir := .out }
    peer := { State.reset.peer with dr := registers fun _ => 0x00 } }

/-- After `init` and `startTransaction`. -/
def opened : State :=
  { ready with txnOpen := true, framing := .opened, pins := { ready.pins with stb := false } }

/-- After `init`, `startTransaction` and one `writeBytes`. -/
def wrote (bytes : List Byte) : State := { opened with framing := .wrote bytes }

/-- After `init`, `startTransaction`, one `writeBytes` and one `readBytes`. -/
def readBack (bytes : List Byte) : State := { opened with framing := .readBack bytes }

/-- The same with a chip in fixed-address mode and three data bytes in the frame. -/
def fixedWrote : State := { wrote [0xCF, 1, 2, 0xFF] with peer := { ready.peer with mode := modeWriteFixed } }

/-- The premise broken. -/
def broken : State := { ready with framing := .broken }

/-- A chip that holds something: a digit and an LED, and write mode. -/
def filled : State :=
  { ready with peer := { ready.peer with dr := registers fun a => if a = 0 then 0x3F else if a = 15 then 0x01 else 0x00 } }

/-- The default parameters (R57). -/
abbrev bytes0 : CommandBytes := CommandBytes.defaults

/-- The fixture `SEG_T` of 95_test_vectors.md section 4: each of the 60 codes has its index in ascending order. -/
def segT (c : BitVec 7) : Byte :=
  if supportedCode c then
    BitVec.ofNat 8 ((List.range (foldCase c).toNat).filter fun k => distinctCode (BitVec.ofNat 7 k)).length
  else 0x80

/-- What a call leaves, seen through `f`. -/
def after {α : Type} (o : Host.Outcome State Fault Refusal) (f : State → α) : Option α :=
  match o with
  | .next s => some (f s)
  | .fault _ => none
  | .refused _ => none

/-- Why a call was refused. -/
def refusal (o : Host.Outcome State Fault Refusal) : Option Refusal :=
  match o with
  | .next _ => none
  | .fault _ => none
  | .refused r => some r

/-! ## WellFormed: an ill-formed term for each check, beside the nearest accepted one (PROG-5, VP-4, VC-13) -/

theorem test_wf_brightness : (Instr.configureDisplay 8 true).wf = false ∧ (Instr.configureDisplay 7 true).wf = true := by
  decide
theorem test_wf_setDigit : (Instr.setDigit 0x00 8).wf = false ∧ (Instr.setDigit 0x00 7).wf = true := by decide
theorem test_wf_setDigits_range : (Instr.setDigits [1, 2, 3] 6 3).wf = false ∧ (Instr.setDigits [1, 2, 3] 5 3).wf = true := by
  decide
/-- A start of 8 is no position, even for no digits (R64, D18). -/
theorem test_wf_start : (Instr.setDigits [] 8 0).wf = false ∧ (Instr.setDigits [] 7 0).wf = true ∧
    (Instr.setDigitsHex [] 8 0).wf = false ∧ (Instr.setDigitsHex [] 7 0).wf = true ∧
    (Instr.setDigitsChar [] 8 0).wf = false ∧ (Instr.setDigitsChar [] 7 0).wf = true := by decide
theorem test_wf_setDigits_length : (Instr.setDigits [1] 0 2).wf = false ∧ (Instr.setDigits [1] 7 1).wf = true := by decide
theorem test_wf_setDigitHex : (Instr.setDigitHex 0x0C 8).wf = false ∧ (Instr.setDigitHex 0x0C 7).wf = true := by decide
theorem test_wf_setDigitsHex_range : (Instr.setDigitsHex [1, 2] 7 2).wf = false ∧ (Instr.setDigitsHex [1, 2] 6 2).wf = true := by
  decide
theorem test_wf_setDigitsHex_length : (Instr.setDigitsHex [] 0 1).wf = false ∧ (Instr.setDigitsHex [] 0 0).wf = true := by
  decide
theorem test_wf_setDigitsChar_range :
    (Instr.setDigitsChar [49, 50, 51, 52, 53, 54, 55, 56, 57] 1 9).wf = false ∧
    (Instr.setDigitsChar [49, 50, 51, 52, 53, 54, 55, 56, 57] 0 9).wf = true := by decide
theorem test_wf_setDigitsChar_length : (Instr.setDigitsChar [49] 0 2).wf = false ∧ (Instr.setDigitsChar [49] 0 1).wf = true := by
  decide

/-! ## Decoding: words written out from the bit patterns of R57 -/

theorem test_decode_write_autoinc : decode bytes0 [0b01000000] = .ok (.cmdDataWriteAutoinc, []) := rfl
theorem test_decode_write_fixed : decode bytes0 [0b01000100] = .ok (.cmdDataWriteFixed, []) := rfl
theorem test_decode_read_keys : decode bytes0 [0b01000010] = .ok (.cmdDataReadKeys, []) := rfl
theorem test_decode_display : decode bytes0 [0b10001111] = .ok (.cmdDisplay true 7, []) ∧
    decode bytes0 [0b10000000] = .ok (.cmdDisplay false 0, []) := ⟨rfl, rfl⟩
theorem test_decode_addr : decode bytes0 [0b11000110, 0x3F] = .ok (.cmdAddr 6, [0x3F]) ∧
    decode bytes0 [0b11001111] = .ok (.cmdAddr 15, []) := ⟨rfl, rfl⟩
theorem test_decode_rejects : decode bytes0 [] = .error .empty ∧ decode bytes0 [0b00111111] = .error .noClass ∧
    decode bytes0 [0b00000000] = .error .noClass ∧ decode bytes0 [0b01000001] = .error .noTableRow ∧
    decode bytes0 [0b01001000] = .error .noTableRow ∧ decode bytes0 [0b11010000] = .error .noClass :=
  ⟨rfl, rfl, rfl, rfl, rfl, rfl⟩
/-- R64: operations have no opcode. -/
theorem test_operations_have_no_words : encode bytes0 .startTransaction = none ∧ encode bytes0 .endTransaction = none ∧
    encode bytes0 (.writeBytes [0x40]) = none ∧ encode bytes0 (.readBytes 4) = none ∧ encode bytes0 .init = none ∧ encode bytes0 .deinit = none ∧
    encode bytes0 (.configureDisplay 7 true) = none ∧ encode bytes0 (.setDigit 0x3F 3) = none ∧ encode bytes0 (.setDigits [6] 6 1) = none ∧
    encode bytes0 (.setLeds 0xA5) = none ∧ encode bytes0 (.setDigitHex 5 3) = none ∧ encode bytes0 (.setDigitsHex [1] 0 1) = none ∧
    encode bytes0 (.setDigitsChar [0x68] 0 1) = none ∧ encode bytes0 (.hexToPattern 5) = none ∧ encode bytes0 (.charToPattern 0x37) = none ∧
    encode bytes0 .scanKeys = none ∧ encode bytes0 (.decodeKeys #v[1, 2, 4, 16]) = none ∧ encode bytes0 .debounceInit = none ∧
    encode bytes0 (.debounceUpdate 1) = none := by decide
/-- A table word runs as the first instruction after reset. -/
theorem test_word_runs_from_reset :
    decodeTableWord 8 0xC6 = some (.cmdAddr 6) ∧ after (step (State.reset.withFetchWord 8 0xC6)) (·.peer.addrPtr) = some 6 := by
  decide

/-! ## Bus Transport (95_test_vectors.md section 2) -/

/-- VT-1. -/
theorem test_startTransaction :
    after (exec .startTransaction ready) (fun t => (t.trace, t.pins.stb, t.txnOpen)) = some ([.strobe false], false, true) := by
  decide
/-- VT-2. -/
theorem test_endTransaction :
    after (exec .endTransaction opened) (fun t => (t.trace, t.pins.stb, t.txnOpen)) = some ([.strobe true], true, false) := by
  decide

/-- R56: in fixed-address mode three data bytes of one frame go to one register and the pointer stays. -/
theorem test_fixed_address : after (exec .endTransaction fixedWrote) (fun t => (t.peer.dr, t.peer.addrPtr)) =
    some (registers fun a => if a = 15 then 0xFF else 0x00, 15) := by decide +kernel

/-- The five events of a write cell for each bit. -/
def cells (bits : List Nat) : List Event := bits.flatMap fun b =>
  [.data (b == 1), .clock false, .delay Config.tHalf, .clock true, .delay Config.tHalf]

/-- VT-3, and the wire bits of 0x40 in the table of section 2. -/
theorem test_writeBytes :
    after (exec (.writeBytes [0x40]) opened) (·.trace) = some (.dataOut :: cells [0, 0, 0, 0, 0, 0, 1, 0]) := rfl
/-- VT-4: two bytes, one `DO`, nothing between them; and VT-5. -/
theorem test_writeBytes_two :
    after (exec (.writeBytes [0xC6, 0x3F]) opened) (·.trace) =
      some (.dataOut :: cells [0, 1, 1, 0, 0, 0, 1, 1, 1, 1, 1, 1, 1, 1, 0, 0]) ∧
    after (exec (.writeBytes []) opened) (·.trace) = some [.dataOut] := ⟨rfl, rfl⟩

/-- VT-7: the first byte received is element 0, the first bit is bit 0. -/
theorem test_readBytes :
    after (exec (.readBytes 2) { wrote [0x42] with
      draws := [false, false, false, false, false, false, false, true, true, true, true, true, true, true, true, true] })
      (fun t => (t.ret, t.trace.length, t.draws, t.pins.dioDir)) = some (.bytes [0x80, 0xFF], 82, [], .input) := by decide
/-- VT-6 (its answers, its trace's opening) and VT-8. -/
theorem test_readBytes_corners :
    after (exec (.readBytes 1) { wrote [0x42] with draws := [true, false, true, false, false, true, false, true] })
      (fun t => (t.ret, samples t.trace)) =
      some (.bytes [0xA5], [true, false, true, false, false, true, false, true]) ∧
    after (exec (.readBytes 0) (wrote [0x42])) (fun t => (t.ret, t.trace)) = some (.bytes [], [.dataIn, .delay 5]) := by
  decide
/-- VT-10, and the idle levels of R27. -/
theorem test_init : after (exec .init State.reset) (fun t => (t.trace, t.inited, t.pins.stb, t.pins.clk)) =
    some ([.platformInit], true, true, true) ∧ refusal (exec .init ready) = some .alreadyInitialised := by decide
theorem test_deinit : after (exec .deinit ready) (fun t => (t.trace, t.inited)) = some ([.platformDeinit], false) ∧
    refusal (exec .deinit opened) = some .deinitInsideFrame := by decide

/-! ## Register Protocol (section 3): what an observer of the wires sees -/

/-- VP-4. -/
theorem test_configureDisplay : after (exec (.configureDisplay 7 true) ready) (fun t => (framesSeen t.trace, t.trace.length)) =
    some ([[0x8F], [0x40], [0xC1, 0], [0xC3, 0], [0xC5, 0], [0xC7, 0], [0xC9, 0], [0xCB, 0], [0xCD, 0], [0xCF, 0],
      [0x40], [0xC0, 0], [0xC2, 0], [0xC4, 0], [0xC6, 0], [0xC8, 0], [0xCA, 0], [0xCC, 0], [0xCE, 0]], 1457) := by
  decide +kernel
/-- PROG-1 step 2: sixteen 0x00, `DISP_ON` and `BRIGHT`. -/
theorem test_configureDisplay_chip : after (exec (.configureDisplay 7 true) filled)
    (fun t => (t.peer.dr, t.peer.dispOn, t.peer.bright)) = some ((List.range 16).map fun a => (a, 0x00), true, 7) := by
  decide +kernel
/-- VP-1, PROG-2: 126 events, `DR[6] = 0x3F`. -/
theorem test_setDigit : after (exec (.setDigit 0x3F 3) ready) (fun t => (framesSeen t.trace, t.trace.length, t.peer.dr)) =
    some ([[0x40], [0xC6, 0x3F]], 126, registers fun a => if a = 6 then 0x3F else 0x00) := by decide +kernel
/-- VP-2. -/
theorem test_setDigits : after (exec (.setDigits [0x06, 0x5B] 6 2) ready) (fun t => (framesSeen t.trace, t.trace.length)) =
    some ([[0x40], [0xCC, 0x06], [0xCE, 0x5B]], 209) ∧
    refusal (exec (.setDigits [1, 2] 7 2) ready) = some .positionOutOfRange := by decide +kernel
/-- VP-2, no digits. -/
theorem test_setDigits_none : after (exec (.setDigits [] 0 0) ready) (fun t => (framesSeen t.trace, t.trace.length)) =
    some ([[0x40]], 43) := by decide +kernel
/-- VP-3. -/
theorem test_setLeds : after (exec (.setLeds 0xA5) ready) (fun t => (framesSeen t.trace, t.trace.length)) =
    some ([[0x40], [0xC1, 1], [0xC3, 0], [0xC5, 1], [0xC7, 0], [0xC9, 0], [0xCB, 1], [0xCD, 0], [0xCF, 1]], 707) := by
  decide +kernel
/-- PROG-5: refused inside a frame, and before `init`. -/
theorem test_setLeds_refused : refusal (exec (.setLeds 0xFF) opened) = some .protocolInsideFrame ∧
    refusal (exec (.setLeds 0xFF) State.reset) = some .notInitialised := by decide

/-! ## Hex and character paths (section 4), under the fixture `SEG_T` -/

/-- The fixture is the table of section 4 (a few of its entries). -/
theorem test_fixture : segT 0x20 = 0x00 ∧ segT 0x2F = 0x0D ∧ segT 0x30 = 0x0E ∧ segT 0x40 = 0x1E ∧ segT 0x5C = 0x1F ∧
    segT 0x61 = 0x22 ∧ segT 0x7A = 0x3B ∧ segT 0x5A = 0x3B ∧ segT 0x24 = 0x80 := by decide +kernel
/-- VH-1 to VH-10. -/
theorem test_hexToPattern : ([0x00, 0x05, 0x09, 0x0A, 0x0F, 0x10, 0x85, 0x8A, 0xC6, 0xFF] : List Byte).map (hexPatternWith segT) =
    [0x0E, 0x13, 0x17, 0x22, 0x27, 0x00, 0x93, 0xA2, 0xA7, 0x80] := by decide +kernel
/-- VH-11 to VH-21. -/
theorem test_hexToPattern_letters :
    ([0x41, 0x46, 0x47, 0x61, 0x66, 0x67, 0x30, 0x39, 0x7F, 0x80, 0x90] : List Byte).map (hexPatternWith segT) =
      [0x22, 0x27, 0x00, 0x22, 0x27, 0x00, 0x00, 0x00, 0x00, 0x8E, 0x80] := by decide +kernel
/-- VC-1 to VC-11. -/
theorem test_charToPattern :
    ([0x37, 0xB7, 0x7E, 0xFE, 0x41, 0x61, 0x20, 0xA0, 0x24, 0x00, 0x5A, 0x7A, 0x2E] : List Byte).map (charPatternWith segT) =
      [0x15, 0x95, 0x80, 0x80, 0x22, 0x22, 0x00, 0x80, 0x80, 0x80, 0x3B, 0x3B, 0x0C] := by decide +kernel
/-- VC-12: eight patterns, the rest dropped. -/
theorem test_setDigitsChar_patterns :
    (([0x48, 0x69, 0x7E, 0x20, 0x32, 0x2E, 0x35, 0x24, 0x6F, 0x6B, 0x21] : List Byte).take (min 11 8)).map (charPatternWith segT) =
      [0x29, 0x2A, 0x80, 0x00, 0x10, 0x0C, 0x13, 0x80] := by decide +kernel
/-- VC-13, and PROG-5's accepted call. -/
theorem test_setDigitsChar :
    refusal (exec (.setDigitsChar [97, 98, 99, 100, 101, 102, 103, 104, 105, 106] 4 10) ready) = some .positionOutOfRange ∧
    refusal (exec (.setDigitsChar [49, 50, 51, 52, 53, 54, 55, 56, 57] 0 9) ready) = none := by decide
/-- VC-14: the pattern of 'c', whatever the table. -/
theorem test_setDigitHex : (∀ table, hexPatternWith table 0x0C = table 0x63 ||| 0) ∧
    refusal (exec (.setDigitHex 0x0C 8) ready) = some .positionOutOfRange := ⟨fun _ => rfl, by decide⟩
/-- VC-15: the patterns of '1' and of '2' with its decimal point. -/
theorem test_setDigitsHex : (∀ table, ([0x01, 0x82] : List Byte).map (hexPatternWith table) = [table 0x31 ||| 0, table 0x32 ||| 0x80]) ∧
    refusal (exec (.setDigitsHex [0x01] 0 2) ready) = some .listTooShort := ⟨fun _ => rfl, by decide⟩

/-! ## Key scan (section 5) -/

/-- VK-8, VK-14, VK-23, VK-24, VK-25 with the low nibble first. -/
theorem test_decodeKeys_low :
    ([#v[0x01, 0, 0, 0], #v[0, 0x20, 0, 0], #v[1, 2, 4, 0x10], #v[0x12, 0x34, 0x56, 0x78], #v[5, 0, 0x20, 0x41]] :
      List (Vector Byte 4)).map (decodeKeysWith .low) = [0x020000, 0x000400, 0x420820, 0x556678, 0x821042] := by decide
/-- The same with the high nibble first. -/
theorem test_decodeKeys_high :
    ([#v[0x01, 0, 0, 0], #v[0, 0x20, 0, 0], #v[1, 2, 4, 0x10], #v[0x12, 0x34, 0x56, 0x78], #v[5, 0, 0x20, 0x41]] :
      List (Vector Byte 4)).map (decodeKeysWith .high) = [0x010000, 0x000800, 0x810410, 0xAA99B4, 0x412081] := by decide
/-- VK-26: 205 events, 32 draws, the bytes 01 00 00 00. -/
theorem test_scanKeys :
    after (exec .scanKeys { ready with draws := true :: List.replicate 31 false })
      (fun t => (t.work.raw, t.trace.length, t.draws, t.pins.dioDir, t.txnOpen)) =
      some (#v[0x01, 0, 0, 0], 205, [], .input, false) ∧
    refusal (exec .scanKeys State.reset) = some .notInitialised := by decide +kernel

/-! ## Debounce (section 6) -/

/-- The counter and stable bit of one key after each sample. -/
def keyRun (q : BitVec 3 × Bool) : List Bool → List (BitVec 3 × Bool)
  | [] => []
  | b :: bs => debounceKey q.1 q.2 b :: keyRun (debounceKey q.1 q.2 b) bs

/-- VD-1 (the source's own example) and VD-3. -/
theorem test_debounceKey :
    keyRun (0, false) [true, true, true, false, true] = [(1, false), (2, false), (3, false), (2, false), (3, false)] ∧
    keyRun (4, true) [false, false, false, false, false] = [(3, true), (2, true), (1, true), (0, false), (0, false)] := by
  decide
/-- VD-9. -/
theorem test_debounceUpdate :
    ([1, 1, 1, 1, 0x800000] : List Mask).foldl (fun d m => d.update m) Debounce.zero =
      { cnt := (Vector.replicate 24 0).set 0 3 |>.set 23 1, stable := 1 } := by decide +kernel
/-- VD-10. -/
theorem test_debounceUpdate_ignored : after (exec (.debounceUpdate 0xFF000000) State.reset) (fun t => (t.ret, t.debounce)) =
    some (.mask 0, Debounce.zero) := by decide +kernel
/-- R136. -/
theorem test_debounceInit : after (exec .debounceInit { ready with debounce := { cnt := Vector.replicate 24 4, stable := 0xFFFFFF } })
    (·.debounce) = some Debounce.zero := by decide +kernel

/-! ## The chip's instruction bytes (R56, R57) -/

theorem test_cmdDataWriteAutoinc :
    after (exec .cmdDataWriteAutoinc ready) (·.peer.mode) = some ⟨.autoInc, .normal, .write⟩ := by decide
theorem test_cmdDataWriteFixed :
    after (exec .cmdDataWriteFixed ready) (·.peer.mode) = some ⟨.fixed, .normal, .write⟩ := by decide
theorem test_cmdDataReadKeys :
    after (exec .cmdDataReadKeys ready) (·.peer.mode) = some ⟨.autoInc, .normal, .readKeys⟩ := by decide
theorem test_cmdDisplay :
    after (exec (.cmdDisplay true 5) ready) (fun t => (t.peer.dispOn, t.peer.bright)) = some (true, 5) := by decide
theorem test_cmdAddr : after (exec (.cmdAddr 15) ready) (·.peer.addrPtr) = some 15 := by decide +kernel
/-- A byte no row stands for: `0100 1100` is the fixed-address test mode; in an open frame it breaks the premise. -/
theorem test_other_byte :
    after (step { ready with requests := [.wire 0b01001100] }) (·.peer.mode) = some ⟨.fixed, .test, .write⟩ ∧
    after (step { opened with requests := [.wire 0b01001100] }) (·.framing) = some .broken := by decide +kernel

/-! ## Witnesses: states and operands that meet the hypotheses of each statement, clause by clause -/

theorem ready_inv : ready.Inv :=
  ⟨Debounce.zero_ok, fun _ => ⟨rfl, rfl⟩, fun h => absurd h Bool.noConfusion, rfl, rfl,
    CommandBytes.defaults_ok⟩

theorem ready_idle : ready.BusIdle := ⟨rfl, rfl, rfl⟩
theorem filled_idle : filled.BusIdle := ⟨rfl, rfl, rfl⟩

theorem witness_StepKeepsInvariant :
    State.Inv { ready with requests := [.call .startTransaction] } ∧
    ∃ t, step { ready with requests := [.call .startTransaction] } = .next t :=
  ⟨ready_inv.congr rfl rfl rfl rfl Debounce.zero_ok rfl rfl, _, rfl⟩

theorem witness_StepRunsTheCallersNextChoice : ready.requests = [] ∧
    State.requests { ready with requests := [.call .init] } = .call .init :: [] ∧
    decode ready.codes [0xCF] = .ok (.cmdAddr 15, []) ∧
    State.requests { ready with requests := [.wire 0xCF] } = .wire 0xCF :: [] ∧
    decode ready.codes [0x00] = .error .noClass ∧
    State.requests { ready with requests := [.wire 0x00] } = .wire 0x00 :: [] := by decide +kernel

theorem witness_TableWordRunsAsDecoded : ready.codes = CommandBytes.defaults ∧
    decodeTableWord 8 0x40 = some .cmdDataWriteAutoinc ∧ decodeTableWord 8 0xCF = some (.cmdAddr 15) ∧
    decodeTableWord 8 0x8F = some (.cmdDisplay true 7) := by decide +kernel

theorem witness_DecodeAndEncodeAgree : bytes0.Ok ∧ (Instr.cmdAddr 15).wf = true ∧
    encode bytes0 (.cmdAddr 15) = some [0xCF] ∧ decode bytes0 (0x8F :: []) = .ok (.cmdDisplay true 7, []) :=
  ⟨CommandBytes.defaults_ok, by decide +kernel⟩

theorem witness_CommandBytesAreDistinct :
    encodeCommand bytes0 (.addr 15) = encodeCommand bytes0 (.addr (7 + 8)) := rfl

/-- One call of every row that its preconditions allow, at a boundary of each range, and calls they do not allow. -/
theorem witness_CallsRunExactlyWhenAllowed :
    (∀ i ∈ ([.startTransaction, .endTransaction, .writeBytes [0xFF], .readBytes 4, .deinit, .configureDisplay 7 true,
      .setDigit 0xFF 7, .setDigits [1, 2, 3] 5 3, .setDigits [] 7 0, .setLeds 0xFF, .setDigitHex 0x8F 7, .setDigitsHex [1, 2, 3] 5 3,
      .setDigitsChar [49, 50, 51, 52, 53, 54, 55, 56, 57] 0 9, .hexToPattern 0xFF, .charToPattern 0xFF, .scanKeys,
      .decodeKeys #v[1, 2, 4, 16], .debounceInit, .debounceUpdate 0xFFFFFF, .cmdDataWriteAutoinc, .cmdDataWriteFixed,
      .cmdDataReadKeys, .cmdDisplay true 7, .cmdAddr 15] : List Instr), Allowed i ready) ∧
    Allowed .init State.reset ∧
    (∀ i ∈ ([.init, .configureDisplay 8 true, .setDigit 0 8, .setDigits [1, 2, 3] 6 3, .setDigits [1] 0 2,
      .setDigits [] 8 0, .setDigitHex 0 8, .setDigitsHex [1] 0 2, .setDigitsHex [] 8 0, .setDigitsChar [49] 0 2,
      .setDigitsChar [] 8 0] : List Instr), ¬ Allowed i ready) := by
  simp [Allowed, ready, State.reset]

theorem witness_ViolationsAreRefusedByName : State.reset.inited = false ∧ sendsOwnFrames (.setLeds 0) = true ∧
    ready.inited = true ∧ ready.txnOpen = false ∧ opened.inited = true ∧ opened.txnOpen = true ∧ 7 < 8 ∧
    ([1] : List Byte).length < 2 ∧ 3 ≤ ([1, 2, 3] : List Byte).length ∧ (7 < 6 ∨ 8 < 6 + 3) ∧
    0 ≤ ([] : List Byte).length ∧ (7 < 8 ∨ 8 < 8 + 0) ∧
    ([49] : List Byte).length < min 2 8 ∧ min 9 8 ≤ ([49, 50, 51, 52, 53, 54, 55, 56, 57] : List Byte).length ∧
    (7 < 1 ∨ 8 < 1 + min 9 8) ∧ min 0 8 ≤ ([] : List Byte).length ∧ (7 < 8 ∨ 8 < 8 + min 0 8) := by decide

/-- A step that succeeds, and a violation. -/
theorem witness_EveryStepSucceedsOrIsAViolation :
    (∃ t, step { ready with requests := [.wire 0x00] } = .next t) ∧
    State.requests { ready with requests := [.call .init] } = .call .init :: [] ∧
    ¬ Allowed .init { ready with requests := [] } ∧
    ∃ r, step { ready with requests := [.call .init] } = .refused r :=
  ⟨⟨_, rfl⟩, rfl, fun h => Bool.noConfusion (show true = false from h), _, rfl⟩

theorem witness_StartTransactionOpensFrame : ready.inited = true ∧ ready.framing = .idle := ⟨rfl, rfl⟩

theorem witness_EndTransactionClosesFrame : (wrote [0x42]).inited = true ∧ (wrote [0x42]).codes.Ok ∧
    (wrote [0x42]).framing = .wrote [encodeCommand (wrote [0x42]).codes (.dataMode .normal .autoInc 0b10)] ∧
    (wrote [0x4D]).framing = .wrote [encodeCommand (wrote [0x4D]).codes (.dataMode .test .fixed 0b01)] ∧
    (wrote [0x8F]).framing = .wrote [(wrote [0x8F]).codes.display true 7] ∧
    (wrote [0xCF]).framing = .wrote [(wrote [0xCF]).codes.addr 15] ∧
    (wrote [0xCF, 0xFF]).framing = .wrote [(wrote [0xCF, 0xFF]).codes.addr 15, 0xFF] ∧
    (wrote [0xCF, 1, 2, 0xFF]).framing = .wrote ((wrote [0xCF, 1, 2, 0xFF]).codes.addr 15 :: ([1, 2] ++ [0xFF])) ∧
    (wrote [0xCF, 1, 2, 0xFF]).peer.mode.access = .write ∧ (wrote [0xCF, 1, 2, 0xFF]).peer.mode.testing = .normal ∧
    fixedWrote.framing = .wrote (fixedWrote.codes.addr 15 :: ([1, 2] ++ [0xFF])) ∧
    fixedWrote.peer.mode.addressing = .fixed ∧
    (readBack [0x46]).framing =
      .readBack [encodeCommand (readBack [0x46]).codes (.dataMode .normal .fixed 0b10)] := by decide +kernel

theorem witness_WriteBytesClocksOutLsbFirst : opened.inited = true ∧ opened.framing = .opened ∧
    ([0x40, 0x3F] : List Byte) = [0x40] ++ [0x3F] := by decide

theorem witness_ReadBytesAssemblesLsbFirst : (wrote [0x42]).inited = true ∧
    (wrote [0x42]).framing = .wrote [0x42] ∧ 3 < 4 ∧ 7 < 8 := by decide

theorem witness_InitCallsPlatformInit : State.reset.inited = false := rfl
theorem witness_DeinitCallsPlatformDeinit : ready.inited = true ∧ ready.txnOpen = false := ⟨rfl, rfl⟩

theorem witness_ClockAlternatesInEveryByte : (∃ t, exec (.writeBytes [0xA5]) opened = .next t) ∧
    (∃ t, exec (.readBytes 1) (wrote [0x42]) = .next t) ∧ opened.pins.clk = true := ⟨⟨_, rfl⟩, ⟨_, rfl⟩, rfl⟩

theorem witness_WriteFrameStoresOneRegister : filled.BusIdle ∧ filled.peer.mode.access = .write ∧
    filled.codes.Ok := ⟨filled_idle, rfl, CommandBytes.defaults_ok⟩
theorem witness_CommandFrameIsObeyed : filled.BusIdle ∧ filled.codes.Ok := ⟨filled_idle, CommandBytes.defaults_ok⟩

theorem witness_MisuseEmitsAndLosesTheChip : opened.inited = true ∧ opened.framing ≠ .idle ∧ ready.framing = .idle ∧
    ready.inited = true ∧ opened.framing = .opened ∧ ready.framing ≠ .opened ∧
    (∀ sent, opened.framing ≠ .wrote sent) := by
  refine ⟨rfl, by decide, rfl, rfl, rfl, by decide, fun _ h => by cases h⟩

theorem witness_BrokenFramingStaysBroken : broken.framing = .broken ∧ ∃ t, exec .startTransaction broken = .next t :=
  ⟨rfl, _, rfl⟩

theorem witness_ProtocolOperationsKeepFraming : sendsOwnFrames .scanKeys = true ∧ ready.BusIdle ∧
    ∃ t, exec .scanKeys ready = .next t := ⟨rfl, ready_idle, _, rfl⟩

theorem witness_SetDigitsWritesEachDigit : filled.inited = true ∧ filled.txnOpen = false ∧ filled.framing = .idle ∧
    filled.codes.Ok ∧ 3 ≤ ([1, 2, 3] : List Byte).length ∧ 5 ≤ 7 ∧ 5 + 3 ≤ 8 ∧ 2 < 3 ∧ (∀ i < 3, 15 ≠ 2 * (5 + i)) ∧
    0 ≤ ([] : List Byte).length ∧ 7 ≤ 7 ∧ 7 + 0 ≤ 8 := by decide +kernel

theorem witness_SetDigitWritesOneDigit : filled.inited = true ∧ filled.txnOpen = false ∧ filled.framing = .idle ∧
    filled.codes.Ok ∧ 7 ≤ 7 := by decide +kernel
theorem witness_SetLedsWritesAllLeds : filled.inited = true ∧ filled.txnOpen = false ∧ filled.framing = .idle ∧
    filled.codes.Ok ∧ 7 < 8 ∧ (∀ i < 8, 14 ≠ 2 * i + 1) := by decide +kernel
theorem witness_ConfigureDisplayBlanksEverything : filled.inited = true ∧ filled.txnOpen = false ∧ filled.framing = .idle ∧
    filled.codes.Ok ∧ 7 ≤ 7 ∧ 15 < 16 ∧ 16 ≤ 16 := by decide +kernel
theorem witness_ConfigureDisplayIsIdempotent : filled.BusIdle ∧ filled.codes.Ok ∧ 7 ≤ 7 :=
  ⟨filled_idle, CommandBytes.defaults_ok, by decide⟩

theorem witness_HexOperationsAreDigitOperations : ready.inited = true ∧ ready.txnOpen = false ∧ 7 ≤ 7 ∧
    2 ≤ ([1, 2] : List Byte).length ∧ 6 ≤ 7 ∧ 6 + 2 ≤ 8 := by decide
theorem witness_CharOperationClampsThenWrites : ready.inited = true ∧ ready.txnOpen = false ∧
    min 9 8 ≤ ([49, 50, 51, 52, 53, 54, 55, 56, 57] : List Byte).length ∧ 0 ≤ 7 ∧ 0 + min 9 8 ≤ 8 := by decide

/-- A value at each end of each branch. -/
theorem witness_HexToPatternTakesItsBranch :
    (∀ v ∈ ([0, 9, 0x80, 0x89] : List Byte), (v.extractLsb' 0 7).toNat ≤ 9) ∧
    (∀ v ∈ ([10, 15, 0x8A, 0x8F] : List Byte), 10 ≤ (v.extractLsb' 0 7).toNat ∧ (v.extractLsb' 0 7).toNat ≤ 15) ∧
    (∀ v ∈ ([0x41, 0x46, 0xC6] : List Byte), 0x41 ≤ (v.extractLsb' 0 7).toNat ∧ (v.extractLsb' 0 7).toNat ≤ 0x46) ∧
    (∀ v ∈ ([0x61, 0x66, 0xE6] : List Byte), 0x61 ≤ (v.extractLsb' 0 7).toNat ∧ (v.extractLsb' 0 7).toNat ≤ 0x66) ∧
    (∀ v ∈ ([0x10, 0x40, 0x47, 0x60, 0x67, 0x7F, 0xFF] : List Byte),
      16 ≤ (v.extractLsb' 0 7).toNat ∧ (v.extractLsb' 0 7).toNat ≤ 0x40 ∨
      0x47 ≤ (v.extractLsb' 0 7).toNat ∧ (v.extractLsb' 0 7).toNat ≤ 0x60 ∨ 0x67 ≤ (v.extractLsb' 0 7).toNat) := by decide

theorem witness_CharToPatternLooksUp : supportedCode ((0xFE : Byte).extractLsb' 0 7) = false := by decide
theorem witness_DecimalPointIsPreserved : supportedCode ((0xB7 : Byte).extractLsb' 0 7) = true := by decide
theorem witness_SegmentTableSupportsExactlyTheSet : supportedCode 0x7A = true ∧ supportedCode 0x7B = false := by decide
theorem witness_SegmentTableMergesCase : 25 ≤ 25 := by decide
theorem witness_SegmentTableIsOneToOne : supportedCode 0x30 = true ∧ isUpperCode 0x30 = false ∧ seg 0x30 = seg 0x30 :=
  ⟨by decide, by decide, rfl⟩

theorem witness_ReorderHasItsClosedForm : 1 < 2 ∧ 2 < 3 ∧ 23 < 24 ∧
    8 * (2 - 2) + 2 * 3 + 1 = 8 * (2 - 2) + 2 * 3 + 1 := by decide

/-- Bytes that differ in the ignored bits only. -/
theorem witness_IgnoredRawBitsDoNotReachTheMask :
    (∀ i : Fin 4, ∀ j < 8, j ≠ 3 → j ≠ 7 →
      (#v[0x88, 0x88, 0x88, 0x88] : Vector Byte 4)[i].getLsbD j = (#v[0, 0, 0, 0] : Vector Byte 4)[i].getLsbD j) ∧ 24 ≤ 24 := by
  decide

theorem witness_ScanKeysReadsOneFrame : ready.inited = true ∧ ready.txnOpen = false ∧ ready.framing = .idle ∧
    ready.codes.Ok ∧ 32 ≤ (State.draws { ready with draws := List.replicate 32 true }).length ∧ 7 < 8 := by decide +kernel
theorem witness_ScanKeysIsItsTransportSequence : ready.inited = true ∧ ready.txnOpen = false := ⟨rfl, rfl⟩

/-- Key 0 pressed from 3, key 23 released from 1: the two samples that flip a stable bit. -/
def nearEnds : State :=
  { ready with debounce := { cnt := (Vector.replicate 24 0).set 0 3 |>.set 23 1, stable := 0x800000 } }

theorem witness_DebounceUpdateCountsThenDecides :
    (0x000001 : Mask).getLsbD (0 : Fin 24) = true ∧ nearEnds.debounce.cnt[(0 : Fin 24)].toNat < 4 ∧
    (0x000001 : Mask).getLsbD (23 : Fin 24) = false ∧ 0 < nearEnds.debounce.cnt[(23 : Fin 24)].toNat ∧
    nearEnds.debounce.cnt[(1 : Fin 24)].toNat = 0 ∧
    4 ≤ (Debounce.mk (Vector.replicate 24 4) 0xFFFFFF).cnt[(5 : Fin 24)].toNat ∧ 24 ≤ 24 := by decide

theorem witness_DebounceFollowsItsTransitionTable :
    (nearEnds.debounce.cnt[(0 : Fin 24)], nearEnds.debounce.stable.getLsbD (0 : Fin 24)) = (3, false) ∧
    (nearEnds.debounce.cnt[(23 : Fin 24)], nearEnds.debounce.stable.getLsbD (23 : Fin 24)) = (1, true) ∧
    ∃ t, exec (.debounceUpdate 1) nearEnds = .next t := ⟨rfl, rfl, _, rfl⟩

theorem nearEnds_ok : nearEnds.debounce.Ok := by
  refine ⟨by decide, fun i hi => ?_⟩
  by_cases h : i < 32
  · interval_cases i <;> rfl
  · exact BitVec.getLsbD_of_ge _ _ (by omega)

theorem witness_DebounceSettlesAfterMaxSamples : Debounce.zero.Ok ∧ nearEnds.debounce.Ok ∧
    (∀ m ∈ (List.replicate 4 1 : List Mask), m.getLsbD (0 : Fin 24) = true) ∧ 4 ≤ (List.replicate 4 (1 : Mask)).length ∧
    (∀ m ∈ (List.replicate 3 1 : List Mask), m.getLsbD (0 : Fin 24) = true) ∧ (List.replicate 3 (1 : Mask)).length < 4 ∧
    Debounce.zero.cnt[(0 : Fin 24)] = (if true then 0 else 4) :=
  ⟨Debounce.zero_ok, nearEnds_ok, fun m h => by rw [List.eq_of_mem_replicate h]; rfl, by decide,
    fun m h => by rw [List.eq_of_mem_replicate h]; rfl, by decide, rfl⟩

theorem witness_DebounceKeysAreIndependent :
    (0x000001 : Mask).getLsbD (0 : Fin 24) = (0xFFFFFF : Mask).getLsbD (0 : Fin 24) ∧
    nearEnds.debounce.cnt[(1 : Fin 24)] = ready.debounce.cnt[(1 : Fin 24)] ∧
    nearEnds.debounce.stable.getLsbD (1 : Fin 24) = ready.debounce.stable.getLsbD (1 : Fin 24) ∧
    (∃ t, exec (.debounceUpdate 0x000001) nearEnds = .next t) ∧ ∃ t, exec (.debounceUpdate 0xFFFFFF) ready = .next t :=
  ⟨rfl, rfl, rfl, ⟨_, rfl⟩, ⟨_, rfl⟩⟩

/-- Both flips happen in one update. -/
theorem witness_StableBitChangesOnlyAtTheEnds : nearEnds.debounce.Ok ∧
    (nearEnds.debounce.update 1).stable.getLsbD (0 : Fin 24) = true ∧ nearEnds.debounce.stable.getLsbD (0 : Fin 24) = false ∧
    (nearEnds.debounce.update 1).stable.getLsbD (23 : Fin 24) = false ∧
    nearEnds.debounce.stable.getLsbD (23 : Fin 24) = true ∧ ∃ t, exec (.debounceUpdate 1) nearEnds = .next t :=
  ⟨nearEnds_ok, by decide +kernel, by decide +kernel, by decide +kernel, by decide +kernel, _, rfl⟩

theorem witness_InstructionBytesSelectAtTheChip : filled.framing = .idle ∧ filled.codes.Ok ∧ opened.framing ≠ .idle ∧
    broken.framing ≠ .idle ∧ (Instr.cmdDisplay true 7).command.isSome = true :=
  ⟨rfl, CommandBytes.defaults_ok, by decide, by decide, rfl⟩

/-- A byte of each kind: a row's, a test mode's, one whose access bits name no access, and no command's. -/
theorem witness_EveryByteReachesTheChip :
    State.requests { filled with requests := [.wire 0x4D] } = .wire 0x4D :: [] ∧ filled.framing = .idle ∧
    filled.codes.Ok ∧ 0x42 = encodeCommand filled.codes (.dataMode .normal .autoInc 0b10) ∧
    0x4D = encodeCommand filled.codes (.dataMode .test .fixed 0b01) ∧ 0x8F = filled.codes.display true 7 ∧
    0xCF = filled.codes.addr 15 ∧ ∀ c ∈ allCommands, 0x00 ≠ encodeCommand filled.codes c := by decide +kernel

theorem witness_CommandBytesAreNeverWritten : ∃ t, step { ready with requests := [.wire 0x40] } = .next t := ⟨_, rfl⟩

theorem witness_OnlyDebounceOperationsWriteTheDebounceState : (∃ t, exec .startTransaction ready = .next t) ∧
    Instr.startTransaction ≠ .debounceInit ∧ ∀ m, Instr.startTransaction ≠ .debounceUpdate m :=
  ⟨⟨_, rfl⟩, by decide, fun _ h => by cases h⟩

theorem witness_GhostBitsHaveTheirWriters : (∃ t, exec (.writeBytes [0x40]) opened = .next t) ∧
    Instr.writeBytes [0x40] ≠ .init ∧ Instr.writeBytes [0x40] ≠ .deinit ∧ Instr.writeBytes [0x40] ≠ .startTransaction ∧
    Instr.writeBytes [0x40] ≠ .endTransaction ∧ sendsOwnFrames (.writeBytes [0x40]) = false ∧
    (∃ t, exec .scanKeys ready = .next t) ∧ sendsOwnFrames .scanKeys = true :=
  ⟨⟨_, rfl⟩, by decide, by decide, by decide, by decide, rfl, ⟨_, rfl⟩, rfl⟩

theorem witness_TraceGrowsWithTheTwoDelaysOnly : ∃ t, step { wrote [0x42] with requests := [.call (.readBytes 1)] } = .next t :=
  ⟨_, rfl⟩
theorem witness_SettleDelayFollowsEveryTurnToInput :
    (∃ t, step { wrote [0x42] with requests := [.call (.readBytes 1)] } = .next t) ∧
    readEvents [true] = [] ++ .dataIn :: (.delay 5 :: readCell true) := ⟨⟨_, rfl⟩, rfl⟩
theorem witness_ChipRegistersNeverReachTheBlock : ∃ t, exec (.setDigit 0x3F 3) ready = .next t := ⟨_, rfl⟩
theorem witness_TraceIsNeverRead : ∃ t, exec (.setDigit 0x3F 3) ready = .next t := ⟨_, rfl⟩
theorem witness_AnswersReachOnlyTheReads : (∃ t, exec (.setDigit 0x3F 3) ready = .next t) ∧
    Instr.setDigit 0x3F 3 ≠ .scanKeys ∧ ∀ n, Instr.setDigit 0x3F 3 ≠ .readBytes n :=
  ⟨⟨_, rfl⟩, by decide, fun _ h => by cases h⟩
/-- Every kind of operation the bounds name completes. -/
theorem witness_BusyWaitBounds :
    (∃ t, exec (.writeBytes [0x40]) opened = .next t) ∧ (∃ t, exec (.readBytes 1) (wrote [0x42]) = .next t) ∧
    (∃ t, exec .scanKeys ready = .next t) ∧ (∃ t, exec (.setDigit 0x3F 7) ready = .next t) ∧
    (∃ t, exec (.setDigits [1, 2] 6 2) ready = .next t) ∧ (∃ t, exec (.setLeds 0xFF) ready = .next t) ∧
    (∃ t, exec (.configureDisplay 7 true) ready = .next t) ∧ (∃ t, exec .debounceInit ready = .next t) ∧
    (∃ t, exec (.debounceUpdate 1) ready = .next t) ∧ ∃ t, exec (.decodeKeys #v[1, 2, 4, 16]) ready = .next t :=
  ⟨⟨_, rfl⟩, ⟨_, rfl⟩, ⟨_, rfl⟩, ⟨_, rfl⟩, ⟨_, rfl⟩, ⟨_, rfl⟩, ⟨_, rfl⟩, ⟨_, rfl⟩, ⟨_, rfl⟩, ⟨_, rfl⟩⟩
theorem witness_WiresCarryExactlyTheFrames : (∃ t, exec (.setDigits [1, 2] 6 2) ready = .next t) ∧
    (∃ t, exec (.setLeds 0xFF) ready = .next t) ∧ ∃ t, exec (.configureDisplay 7 true) ready = .next t :=
  ⟨⟨_, rfl⟩, ⟨_, rfl⟩, ⟨_, rfl⟩⟩

end Sys2Proof.Tests
end

section
/-! The scope (spec/00_scope.md): what a step fetches, the parameters as constants, the trace as a pure output. -/

namespace Sys2Proof.Machine

/-! ## The head of the queue decides what a step runs (R5, R12) -/

/-- A step runs an instruction that was fetched, on the state without its request. -/
theorem step_of_fetch_instr {s : State} {i : Instr} (h : s.fetch = .instr i) : step s = exec i s.popRequest := by
  simp only [step, h]

/-- A call is fetched as the instruction called. -/
theorem State.fetch_call {s : State} {i : Instr} {rest : List Request} (h : s.requests = .call i :: rest) :
    s.fetch = .instr i := by
  simp only [State.fetch, h]

/-- A byte that decodes is fetched as the instruction it decodes to. -/
theorem State.fetch_wire_of_decode {s : State} {b : Byte} {i : Instr} {rest : List Request} {bs : List Byte}
    (h : s.requests = .wire b :: rest) (hd : decode s.codes [b] = .ok (i, bs)) : s.fetch = .instr i := by
  simp only [State.fetch, h, hd]

/-- With no request there is nothing to run. -/
theorem step_of_no_request {s : State} (h : s.requests = []) : step s = .next s := by
  simp only [step, State.fetch, h]

/-- Taking the head off a queue whose tail is known. -/
theorem State.popRequest_of_cons {s : State} {r : Request} {rest : List Request} (h : s.requests = r :: rest) :
    s.popRequest = { s with requests := rest } := by
  rw [State.popRequest, h, List.tail_cons]

/-- Settles O4: one lemma for each kind of head of the queue; a byte of no row is `step_wire`. -/
theorem stepRunsTheCallersNextChoice : Obligations.StepRunsTheCallersNextChoice := by
  refine ⟨fun s h => step_of_no_request h, fun s i rest h => ?_, fun s b i rest bs h hd => ?_,
    fun s b rest e h _ => step_wire h⟩
  · rw [step_of_fetch_instr (State.fetch_call h), State.popRequest_of_cons h]
  · rw [step_of_fetch_instr (State.fetch_wire_of_decode h hd), State.popRequest_of_cons h]

/-! ## The parameters `CMD_*` are constants (R8, R25) -/

/-- No shared operation writes the parameters. -/
theorem closed_codes_eq (k : CommandBytes) : Closed fun s => s.codes = k where
  start    := fun _ _ h => h
  send     := fun _ _ _ h => h
  recv     := fun _ _ _ h => h
  stop     := fun _ _ h => h
  up       := fun _ _ h => h
  down     := fun _ _ _ h => h
  zeroed   := fun _ h => h
  sampled  := fun _ _ h => h
  chip     := fun _ _ h => h
  working  := fun _ _ h => h
  returned := fun _ _ h => h

/-- Settles O60: having the parameters of the start state is kept by every shared operation and by the fetch. -/
theorem commandBytesAreNeverWritten : Obligations.CommandBytesAreNeverWritten := fun s _ h =>
  step_closed (closed_codes_eq s.codes) (fun _ hk => hk) h rfl

/-! ## The trace is never read (R7, R26) -/

/-- `s` and `u` have come from the traces `base` and `past` by the same events and agree in everything else. -/
def SameSince (base past : List Event) (s u : State) : Prop :=
  ∃ es, s.trace = base ++ es ∧ u = { s with trace := past ++ es }

/-- Two states that differ in the past trace only start out so, with no event yet. -/
theorem SameSince.refl (s : State) (past : List Event) : SameSince s.trace past s { s with trace := past } :=
  ⟨[], (List.append_nil _).symm, by rw [List.append_nil]⟩

/-- An operation that adds the events `new` to any trace and does not read it keeps the two runs together. -/
theorem SameSince.append {base past : List Event} {s u : State} {f : State → State} (new : List Event)
    (ht : (f s).trace = s.trace ++ new)
    (hf : ∀ tr, f { s with trace := tr } = { f s with trace := tr ++ new }) (h : SameSince base past s u) :
    SameSince base past (f s) (f u) := by
  obtain ⟨es, hs, rfl⟩ := h
  exact ⟨es ++ new, by rw [ht, hs, List.append_assoc], by rw [hf, List.append_assoc]⟩

/-- An operation that neither writes nor reads the trace keeps the two runs together. -/
theorem SameSince.silent {base past : List Event} {s u : State} {f : State → State} (ht : (f s).trace = s.trace)
    (hf : ∀ tr, f { s with trace := tr } = { f s with trace := tr }) (h : SameSince base past s u) :
    SameSince base past (f s) (f u) := by
  obtain ⟨es, hs, rfl⟩ := h
  exact ⟨es, ht.trans hs, hf _⟩

/-- A part of the state other than the trace is the same in both runs. -/
theorem SameSince.agree {α : Type} {base past : List Event} {s u : State} (part : State → α)
    (hp : ∀ tr, part { s with trace := tr } = part s) (h : SameSince base past s u) : part u = part s := by
  obtain ⟨es, _, rfl⟩ := h
  exact hp _

/-- Every shared operation keeps the two runs together. -/
theorem sameSince_related (base past : List Event) : Related (SameSince base past) where
  inited   := SameSince.agree State.inited fun _ => rfl
  txnOpen  := SameSince.agree State.txnOpen fun _ => rfl
  debounce := SameSince.agree State.debounce fun _ => rfl
  codes    := SameSince.agree State.codes fun _ => rfl
  start    := SameSince.append [.strobe false] rfl fun _ => rfl
  send     := fun bs => SameSince.append (f := (·.sendBytes bs)) (writeEvents bs) rfl fun _ => rfl
  stop     := SameSince.append [.strobe true] rfl fun _ => rfl
  up       := SameSince.append [.platformInit] rfl fun _ => rfl
  down     := SameSince.append [.platformDeinit] rfl fun _ => rfl
  filter   := fun d => SameSince.silent (f := fun s => { s with debounce := d }) rfl fun _ => rfl
  chip     := fun b => SameSince.silent (f := (·.chipFrame b)) rfl fun _ => rfl
  working  := fun g => SameSince.silent (f := fun s => { s with work := g s.work }) rfl fun _ => rfl
  returned := fun r => SameSince.silent (f := (·.withRet r)) rfl fun _ => rfl

/-- The reads keep them together too: the wire's answers come from the queue and the free values, not the trace. -/
theorem sameSince_hearing (base past : List Event) : Hearing (SameSince base past) where
  answers := fun n => SameSince.agree (·.answers n) fun _ => rfl
  recv    := fun {s _} n =>
    SameSince.append (f := (·.recvBytes n)) (readEvents (s.answers (8 * n))) rfl fun _ => rfl

/-- Settles O55: the run from the other trace is related to the given one by `SameSince`. -/
theorem traceIsNeverRead : Obligations.TraceIsNeverRead := by
  intro i s t past he
  obtain ⟨v, hv, es, ht, rfl⟩ :=
    exec_related (sameSince_related s.trace past) (.inl (sameSince_hearing s.trace past)) he (.refl s past)
  exact ⟨es, ht, hv⟩

end Sys2Proof.Machine
end

section
/-! The state (spec/10_state.md): the invariant at reset and through every step, who writes the Debounce State and the
ghost bits, what never reaches the block, and the chip's instruction bytes. -/

namespace Sys2Proof.Machine

/-! ## The framing premise agrees with `txn_open` (R22, R176) -/

/-- The level of `txn_open` a framing premise goes with; a broken one goes with either. -/
def Framing.Agrees (txnOpen : Bool) : Framing → Prop
  | .idle => txnOpen = false
  | .opened => txnOpen = true
  | .wrote _ => txnOpen = true
  | .readBack _ => txnOpen = true
  | .broken => True

/-- What a transport operation leaves in `txn_open` (R22). -/
def BusAct.leaves (txnOpen : Bool) : BusAct → Bool
  | .start => true
  | .write _ => txnOpen
  | .read => txnOpen
  | .stop => false

/-- `Framing.Agrees` is the invariant's clause about a state's framing. -/
theorem State.framingOk_iff (s : State) : s.FramingOk ↔ s.framing.Agrees s.txnOpen := by
  cases h : s.framing <;> simp only [State.FramingOk, Framing.Agrees, h]

/-- A transport operation moves the premise and `txn_open` together. -/
theorem Framing.agrees_next {f : Framing} {txnOpen : Bool} (act : BusAct) (h : f.Agrees txnOpen) :
    (f.next act).Agrees (act.leaves txnOpen) := by
  unfold Framing.next
  split
  case h_1 => rfl
  case h_2 => exact h
  case h_3 => exact h
  case h_4 => rfl
  case h_5 => rfl
  case h_6 => trivial

/-! ## Every step keeps the invariant -/

/-- Every `writeBytes` leaves a high clock high and the strobe where it was (R74, R78). -/
theorem foldl_writeEvents_lines (p : Pins) (bytes : List Byte) (h : p.clk = true) :
    ((writeEvents bytes).foldl Pins.apply p).clk = true ∧ ((writeEvents bytes).foldl Pins.apply p).stb = p.stb := by
  rw [foldl_writeEvents]
  split
  · exact ⟨h, rfl⟩
  · exact ⟨rfl, rfl⟩

/-- Every `readBytes` leaves a high clock high and the strobe where it was (R75, R78). -/
theorem foldl_readEvents_lines (p : Pins) (bits : List Bool) (h : p.clk = true) :
    ((readEvents bits).foldl Pins.apply p).clk = true ∧ ((readEvents bits).foldl Pins.apply p).stb = p.stb := by
  rw [foldl_readEvents]
  exact ⟨by simp [h], rfl⟩

/-- A transport operation on an initialised handle keeps the invariant, if it leaves the clock high and the strobe low
exactly in a frame. -/
theorem State.Inv.busAct {s t : State} {n : Nat} (act : BusAct) (h : s.Inv) (hi : s.inited = true)
    (ht : t.inited = s.inited) (hd : t.debounce = s.debounce) (hk : t.codes = s.codes)
    (hf : t.framing = s.framing.next act) (ho : t.txnOpen = act.leaves s.txnOpen)
    (hp : t.peer = s.peer.after s.codes n s.framing act) (hl : t.pins.clk = true ∧ t.pins.stb = !t.txnOpen) : t.Inv where
  debounce := hd ▸ h.debounce
  lines    := fun _ => hl
  window   := fun e => by rw [ht, hi] at e; cases e
  framing  := by
    rw [State.framingOk_iff, hf, ho]
    exact Framing.agrees_next act (s.framingOk_iff.mp h.framing)
  memory   := by
    rw [State.MemoryOk, hp]
    exact Peer.after_wf _ _ _ _ h.memory
  codes    := hk ▸ h.codes

theorem State.Inv.startTxn {s : State} (h : s.Inv) (hi : s.inited = true) : s.startTxn.Inv :=
  h.busAct .start hi rfl rfl rfl rfl rfl rfl ⟨(h.lines hi).1, rfl⟩

theorem State.Inv.endTxn {s : State} (h : s.Inv) (hi : s.inited = true) : s.endTxn.Inv :=
  h.busAct .stop hi rfl rfl rfl rfl rfl rfl ⟨(h.lines hi).1, rfl⟩

theorem State.Inv.sendBytes {s : State} (bytes : List Byte) (h : s.Inv) (hi : s.inited = true) :
    (s.sendBytes bytes).Inv := by
  obtain ⟨hclk, hstb⟩ := h.lines hi
  obtain ⟨hclk', hstb'⟩ := foldl_writeEvents_lines s.pins bytes hclk
  exact h.busAct (.write bytes) hi rfl rfl rfl rfl rfl rfl ⟨hclk', hstb'.trans hstb⟩

theorem State.Inv.recvBytes {s : State} (n : Nat) (h : s.Inv) (hi : s.inited = true) : (s.recvBytes n).Inv := by
  obtain ⟨hclk, hstb⟩ := h.lines hi
  obtain ⟨hclk', hstb'⟩ := foldl_readEvents_lines s.pins (s.answers (8 * n)) hclk
  exact h.busAct .read hi rfl rfl rfl rfl rfl rfl ⟨hclk', hstb'.trans hstb⟩

/-- `init` meets a closed bus, by the window clause, and leaves both lines high (R27, R76). -/
theorem State.Inv.platformUp {s : State} (h : s.Inv) (hi : s.inited = false) : s.platformUp.Inv where
  debounce := h.debounce
  lines    := fun _ => ⟨rfl, by rw [State.platformUp_txnOpen, h.window hi]; rfl⟩
  window   := fun e => by cases e
  framing  := h.framing
  memory   := h.memory
  codes    := h.codes

/-- `deinit` is made with no frame open, so it leaves none open outside the window (R77, R171). -/
theorem State.Inv.platformDown {s : State} (h : s.Inv) (ho : s.txnOpen = false) : s.platformDown.Inv where
  debounce := h.debounce
  lines    := fun e => by cases e
  window   := fun _ => ho
  framing  := h.framing
  memory   := h.memory
  codes    := h.codes

/-- A byte that reaches the chip on an idle bus leaves the premise as it is, and in any other framing breaks it. -/
theorem State.chipFrame_agrees {s : State} (b : Byte) (h : s.framing.Agrees s.txnOpen) :
    (s.chipFrame b).framing.Agrees s.txnOpen := by
  by_cases hf : s.framing = .idle
  · rw [State.chipFrame_idle b hf]
    exact h
  · rw [State.chipFrame_broken b hf]
    trivial

theorem State.Inv.chipFrame {s : State} (b : Byte) (h : s.Inv) : (s.chipFrame b).Inv where
  debounce := h.debounce
  lines    := h.lines
  window   := h.window
  framing  := (State.framingOk_iff _).mpr (State.chipFrame_agrees b (s.framingOk_iff.mp h.framing))
  memory   := State.chipFrame_wf b h.memory
  codes    := h.codes

/-- Every shared operation keeps the invariant. -/
theorem closed_inv : Closed State.Inv where
  start    := fun _ hi h => h.startTxn hi
  send     := fun _ bs hi h => h.sendBytes bs hi
  recv     := fun _ n hi h => h.recvBytes n hi
  stop     := fun _ hi h => h.endTxn hi
  up       := fun _ hi h => h.platformUp hi
  down     := fun _ _ ho h => h.platformDown ho
  zeroed   := fun _ h => h.congr rfl rfl rfl rfl Debounce.zero_ok h.memory rfl
  sampled  := fun _ m h => h.congr rfl rfl rfl rfl (Debounce.update_ok m h.debounce) h.memory rfl
  chip     := fun _ b h => h.chipFrame b
  working  := fun _ _ h => h.congr rfl rfl rfl rfl h.debounce h.memory rfl
  returned := fun _ _ h => h.congr rfl rfl rfl rfl h.debounce h.memory rfl

/-- Settles O3: the invariant is kept by every shared operation and by the fetch. -/
theorem stepKeepsInvariant : Obligations.StepKeepsInvariant := fun _ _ h hs =>
  step_closed closed_inv (fun _ h => h.congr rfl rfl rfl rfl h.debounce h.memory rfl) hs h

/-! ## Who writes the Debounce State and the ghost bits (R14, R15, R22, R23) -/

/-- The parts of the block the rules name the writers of. -/
@[ext] structure Control where
  /-- the Debounce State (R14) -/
  debounce : Debounce
  /-- `inited` (R23) -/
  inited   : Bool
  /-- `txn_open` (R22) -/
  txnOpen  : Bool

/-- A state's Debounce State and ghost bits. -/
def State.control (s : State) : Control := ⟨s.debounce, s.inited, s.txnOpen⟩

/-- Each writer and what it writes; no other instruction writes any of the three. -/
def Control.after (c : Control) : Instr → Control
  | .startTransaction => { c with txnOpen := true }
  | .endTransaction => { c with txnOpen := false }
  | .init => { c with inited := true }
  | .deinit => { c with inited := false }
  | .debounceInit => { c with debounce := Debounce.zero }
  | .debounceUpdate m => { c with debounce := c.debounce.update m }
  | _ => c

/-- Frames sent with none open leave the Debounce State and the ghost bits as they were. -/
theorem State.OnlyBus.control {s t : State} (h : s.OnlyBus t) : t.control = s.control :=
  Control.ext h.debounce h.inited h.txnOpen

/-- What an instruction leaves in the Debounce State and the ghost bits. -/
theorem exec_control {i : Instr} {s t : State} (he : exec i s = .next t) : t.control = s.control.after i := by
  have closed : ∀ {g : Option Refusal}, s.protocolGuard.or g = none → s.txnOpen = false := fun hg =>
    (State.protocolGuard_none_iff.mp (or_none_iff.mp hg).1).2
  cases i with
  | startTransaction | endTransaction | writeBytes | readBytes | init | deinit =>
    obtain ⟨_, rfl⟩ := guarded_next_iff.mp he
    rfl
  | setDigit | setDigits | setDigitHex | setDigitsHex | setDigitsChar =>
    obtain ⟨hg, rfl⟩ := guarded_next_iff.mp he
    exact (State.modeAndWrites_onlyBus _ (closed hg)).control
  | configureDisplay b on =>
    obtain ⟨hg, rfl⟩ := guarded_next_iff.mp he
    exact (State.twoRounds_onlyBus (.display on (BitVec.ofNat 3 b)) _ _ (closed hg)).control
  | setLeds =>
    obtain ⟨hg, rfl⟩ := guarded_next_iff.mp he
    exact (State.modeAndWrites_onlyBus _ (State.protocolGuard_none_iff.mp hg).2).control
  | scanKeys =>
    obtain ⟨hg, rfl⟩ := guarded_next_iff.mp he
    exact Control.ext rfl rfl (State.protocolGuard_none_iff.mp hg).2.symm
  | hexToPattern | charToPattern | decodeKeys | debounceInit | debounceUpdate | cmdDataWriteAutoinc
  | cmdDataWriteFixed | cmdDataReadKeys | cmdDisplay | cmdAddr =>
    cases he
    rfl

theorem Control.after_debounce (c : Control) {i : Instr} (h : i ≠ .debounceInit) (h' : ∀ m, i ≠ .debounceUpdate m) :
    (c.after i).debounce = c.debounce := by
  cases i with
  | debounceInit => exact absurd rfl h
  | debounceUpdate m => exact absurd rfl (h' m)
  | _ => simp only [Control.after]

theorem Control.after_inited (c : Control) {i : Instr} (h : i ≠ .init) (h' : i ≠ .deinit) :
    (c.after i).inited = c.inited := by
  cases i with
  | init => exact absurd rfl h
  | deinit => exact absurd rfl h'
  | _ => simp only [Control.after]

theorem Control.after_txnOpen (c : Control) {i : Instr} (h : i ≠ .startTransaction) (h' : i ≠ .endTransaction) :
    (c.after i).txnOpen = c.txnOpen := by
  cases i with
  | startTransaction => exact absurd rfl h
  | endTransaction => exact absurd rfl h'
  | _ => simp only [Control.after]

/-- Settles O50: of the writers `Control.after` names, only the two debounce operations write the Debounce State. -/
theorem onlyDebounceOperationsWriteTheDebounceState : Obligations.OnlyDebounceOperationsWriteTheDebounceState :=
  fun _ s _ he h h' => (congrArg Control.debounce (exec_control he)).trans (s.control.after_debounce h h')

/-- Settles O51: the writers of the ghost bits are the ones `Control.after` names, and neither writer of `txn_open` sends
frames of its own. -/
theorem ghostBitsHaveTheirWriters : Obligations.GhostBitsHaveTheirWriters := by
  intro i s t he
  have txnOpen : i ≠ .startTransaction → i ≠ .endTransaction → t.txnOpen = s.txnOpen := fun h h' =>
    (congrArg Control.txnOpen (exec_control he)).trans (s.control.after_txnOpen h h')
  refine ⟨fun h h' => ?_, fun h h' _ => txnOpen h h', fun h => txnOpen ?_ ?_⟩
  · exact (congrArg Control.inited (exec_control he)).trans (s.control.after_inited h h')
  · rintro rfl
    cases h
  · rintro rfl
    cases h

/-! ## What never reaches the block (R26, R32, R35, R75) -/

/-- `u` is `s` with perhaps another chip behind the wires. -/
def SameBlock (s u : State) : Prop := ∃ p, u = { s with peer := p }

/-- An operation whose effect outside the chip does not depend on the chip keeps two runs alike there. -/
theorem SameBlock.map {s u : State} {f : State → State}
    (hf : ∀ p, f { s with peer := p } = { f s with peer := (f { s with peer := p }).peer }) (h : SameBlock s u) :
    SameBlock (f s) (f u) := by
  obtain ⟨p, rfl⟩ := h
  exact ⟨_, hf p⟩

/-- A part of the state other than the chip is the same in both runs. -/
theorem SameBlock.agree {α : Type} {s u : State} (part : State → α) (hp : ∀ p, part { s with peer := p } = part s)
    (h : SameBlock s u) : part u = part s := by
  obtain ⟨p, rfl⟩ := h
  exact hp p

/-- No shared operation lets the chip reach the block. -/
theorem sameBlock_related : Related SameBlock where
  inited   := SameBlock.agree State.inited fun _ => rfl
  txnOpen  := SameBlock.agree State.txnOpen fun _ => rfl
  debounce := SameBlock.agree State.debounce fun _ => rfl
  codes    := SameBlock.agree State.codes fun _ => rfl
  start    := SameBlock.map fun _ => rfl
  send     := fun bs => SameBlock.map (f := (·.sendBytes bs)) fun _ => rfl
  stop     := SameBlock.map fun _ => rfl
  up       := SameBlock.map fun _ => rfl
  down     := SameBlock.map fun _ => rfl
  filter   := fun d => SameBlock.map (f := fun s => { s with debounce := d }) fun _ => rfl
  chip     := fun b => SameBlock.map (f := (·.chipFrame b)) fun _ => rfl
  working  := fun g => SameBlock.map (f := fun s => { s with work := g s.work }) fun _ => rfl
  returned := fun r => SameBlock.map (f := (·.withRet r)) fun _ => rfl

/-- Nor do the reads: the wire's answers come from the queue and the free values, not the chip. -/
theorem sameBlock_hearing : Hearing SameBlock where
  answers := fun n => SameBlock.agree (·.answers n) fun _ => rfl
  recv    := fun n => SameBlock.map (f := (·.recvBytes n)) fun _ => rfl

/-- Settles O54: the run with the other chip is related to the given one by `SameBlock`. -/
theorem chipRegistersNeverReachTheBlock : Obligations.ChipRegistersNeverReachTheBlock := by
  intro i s t p he
  obtain ⟨v, hv, q, rfl⟩ := exec_related sameBlock_related (.inl sameBlock_hearing) he ⟨p, rfl⟩
  exact ⟨_, hv, rfl⟩

/-- `u` is `s` with these answers of the wire in place of its own. -/
def SameBut (answers : List Bool) (s u : State) : Prop := u = { s with draws := answers }

/-- An operation that neither writes nor reads the answers keeps two runs alike outside them. -/
theorem SameBut.map {answers : List Bool} {s u : State} {f : State → State}
    (hf : f { s with draws := answers } = { f s with draws := answers }) (h : SameBut answers s u) :
    SameBut answers (f s) (f u) := by
  rw [h]
  exact hf

/-- No shared operation but the reads touches the answers. -/
theorem sameBut_related (answers : List Bool) : Related (SameBut answers) where
  inited   := congrArg State.inited
  txnOpen  := congrArg State.txnOpen
  debounce := congrArg State.debounce
  codes    := congrArg State.codes
  start    := SameBut.map rfl
  send     := fun bs => SameBut.map (f := (·.sendBytes bs)) rfl
  stop     := SameBut.map rfl
  up       := SameBut.map rfl
  down     := SameBut.map rfl
  filter   := fun d => SameBut.map (f := fun s => { s with debounce := d }) rfl
  chip     := fun b => SameBut.map (f := (·.chipFrame b)) rfl
  working  := fun g => SameBut.map (f := fun s => { s with work := g s.work }) rfl
  returned := fun r => SameBut.map (f := (·.withRet r)) rfl

/-- Settles O56: without the two reads, the run with the other answers is related to the given one by `SameBut`. -/
theorem answersReachOnlyTheReads : Obligations.AnswersReachOnlyTheReads := by
  intro i s t answers hscan hread he
  obtain ⟨v, hv, rfl⟩ := exec_related (sameBut_related answers) (.inr ⟨hscan, hread⟩) he rfl
  exact hv

/-! ## Reset (R14, R17, R22, R23, R27) -/

/-- The Debounce State starts zeroed (log 11). -/
@[simp] theorem State.reset_debounce : State.reset.debounce = Debounce.zero := rfl

/-- Settles O1: the zeroed Debounce State, read out counter by counter. -/
theorem resetLeavesZeroedDebounceAndClosedBus : Obligations.ResetLeavesZeroedDebounceAndClosedBus :=
  ⟨fun i => by simp [Debounce.zero], rfl, rfl, rfl⟩

/-- Settles O2: the bus is closed and not initialised, and the chip's registers are free values at the 16 addresses. -/
theorem resetMeetsInvariant : Obligations.ResetMeetsInvariant where
  debounce := Debounce.zero_ok
  lines    := fun e => by cases e
  window   := fun _ => rfl
  framing  := rfl
  memory   := Peer.unknown_wf 0
  codes    := CommandBytes.defaults_ok

/-! ## Table words and instruction bytes (R12, R56, R57) -/

/-- What the table's word stands for is what its byte decodes to under the default parameters. -/
theorem decode_of_decodeTableWord {nbits w : Nat} {i : Instr} (h : decodeTableWord nbits w = some i) :
    decode CommandBytes.defaults [BitVec.ofNat 8 (w % 2 ^ nbits)] = .ok (i, []) := by
  unfold decodeTableWord at h
  split at h
  · rename_i j hj
    cases h
    exact hj
  · cases h

/-- Settles O5: the word's byte heads the queue, decodes to the instruction, and leaves the queue as it was. -/
theorem tableWordRunsAsDecoded : Obligations.TableWordRunsAsDecoded := by
  intro s nbits w i hk h
  have hd : decode (s.withFetchWord nbits w).codes [BitVec.ofNat 8 (w % 2 ^ nbits)] = .ok (i, []) :=
    hk ▸ decode_of_decodeTableWord h
  rw [step_of_fetch_instr (State.fetch_wire_of_decode rfl hd), State.popRequest_of_cons rfl]
  rfl

/-- On an idle bus an instruction byte is obeyed by the chip. -/
theorem exec_of_command_idle {i : Instr} {c : Command} {s : State} (h : i.command = some c) (hf : s.framing = .idle)
    (hk : s.codes.Ok) :
    exec i s = .next { s with peer := s.peer.command (s.freeCount + 2) c, freeCount := s.freeCount + 3 } := by
  rw [exec_of_command h, State.chipFrame_command c hf hk]

/-- In every other framing an instruction byte breaks the premise, and nothing is known of the chip. -/
theorem exec_of_command_broken {i : Instr} {c : Command} {s : State} (h : i.command = some c)
    (hf : s.framing ≠ .idle) :
    exec i s = .next { s with
      framing := .broken, peer := Peer.unknown (s.freeCount + 2), freeCount := s.freeCount + 3 } := by
  rw [exec_of_command h, State.chipFrame_broken _ hf]

/-- Settles O49: each instruction byte is its command, obeyed on an idle bus and lost in any other framing. -/
theorem instructionBytesSelectAtTheChip : Obligations.InstructionBytesSelectAtTheChip := by
  refine ⟨fun s hf hk => ?_, fun s i hf hc => ?_⟩
  · have obeyed : ∀ {i : Instr} {c : Command}, i.command = some c → exec i s =
        .next { s with peer := s.peer.command (s.freeCount + 2) c, freeCount := s.freeCount + 3 } :=
      fun h => exec_of_command_idle h hf hk
    exact ⟨⟨_, obeyed rfl, rfl⟩, ⟨_, obeyed rfl, rfl⟩, ⟨_, obeyed rfl, rfl⟩, fun _ _ => ⟨_, obeyed rfl, rfl⟩,
      fun _ => ⟨_, obeyed rfl, rfl⟩⟩
  · obtain ⟨c, hc⟩ := Option.isSome_iff_exists.mp hc
    exact ⟨_, exec_of_command_broken hc hf, rfl⟩

end Sys2Proof.Machine
end

section
/-! The wires and the chip (spec/20_memory.md): what an observer reads off the wires, the `F_WR` frame as three calls,
how the trace grows, and a byte that reaches the chip alone. -/

namespace Sys2Proof.Machine

/-! ## The wires carry the frames (R36, R53, R54) -/

/-- The observer reads frames sent one after another, byte list by byte list, whatever it has seen before. -/
theorem see_flatMap_frameEvents (w : Watch) (frames : List (List Byte)) :
    ((frames.flatMap frameEvents).foldl Watch.see w).frames = w.frames ++ frames := by
  induction frames generalizing w with
  | nil => exact (List.append_nil _).symm
  | cons bytes frames ih =>
    obtain ⟨b, hb⟩ := see_frameEvents w bytes
    rw [List.flatMap_cons, List.foldl_append, hb, ih, List.append_assoc, List.singleton_append]

/-- Decoding on the wire undoes encoding: the frames seen are the frames sent. -/
theorem framesSeen_flatMap_frameEvents (frames : List (List Byte)) : framesSeen (frames.flatMap frameEvents) = frames :=
  see_flatMap_frameEvents _ frames

/-- The frames of mode select and writes: the shape of `setDigits` and `setLeds` (R93, R96, R97). -/
def modeAndWritesFrames (k : CommandBytes) (ws : List (BitVec 4 × Byte)) : List (List Byte) :=
  [k.dataWriteAutoinc] :: ws.map fun w => [k.addr w.1, w.2]

/-- The events of mode select and writes are those frames, sent one after another. -/
theorem modeAndWritesEvents_eq (k : CommandBytes) (ws : List (BitVec 4 × Byte)) :
    modeAndWritesEvents k ws = (modeAndWritesFrames k ws).flatMap frameEvents := by
  rw [modeAndWritesFrames, List.flatMap_cons, List.flatMap_map]
  rfl

/-- The digit writes of the first `n` patterns, element by element (R96). -/
theorem digitWrites_take {ps : List Byte} {n : Nat} (start : Nat) (h : n ≤ ps.length) :
    digitWrites (ps.take n) start = (List.range n).map fun i => (digitAddr (start + i), ps.getD i 0) := by
  apply List.ext_getElem
  · simp [h]
  · intro i hi hi'
    have hn : i < n := by simpa using hi'
    simp [digitWrites, hn.trans_le h]

/-- The frames of `setDigits` (R96). -/
theorem modeAndWritesFrames_digits (k : CommandBytes) {ps : List Byte} {n : Nat} (start : Nat) (h : n ≤ ps.length) :
    modeAndWritesFrames k (digitWrites (ps.take n) start) = [k.dataWriteAutoinc] :: (List.range n).map fun i =>
      [k.addr (BitVec.ofNat 4 (2 * (start + i))), ps.getD i 0] := by
  rw [modeAndWritesFrames, digitWrites_take start h, List.map_map]
  rfl

/-- The frames of `setLeds` (R97). -/
theorem modeAndWritesFrames_leds (k : CommandBytes) (m : Byte) :
    modeAndWritesFrames k (ledWrites m) = [k.dataWriteAutoinc] :: (List.range 8).map fun i =>
      [k.addr (BitVec.ofNat 4 (2 * i + 1)), if m.getLsbD i then 0x01 else 0x00] := by
  simp only [modeAndWritesFrames, ledWrites, List.map_map, Function.comp_def, ledAddr, ledByte_eq]

/-- The frames of `setLeds(0x00)` in `configureDisplay` (R94). -/
theorem modeAndWritesFrames_leds_off (k : CommandBytes) :
    modeAndWritesFrames k (ledWrites 0x00) = [k.dataWriteAutoinc] :: (List.range 8).map fun i =>
      [k.addr (BitVec.ofNat 4 (2 * i + 1)), 0x00] := by
  simp [modeAndWritesFrames_leds]

/-- The frames of the eight blank digits in `configureDisplay` (R94). -/
theorem modeAndWritesFrames_digits_blank (k : CommandBytes) :
    modeAndWritesFrames k (digitWrites ((List.replicate Config.nDigits Config.blank).take Config.nDigits) 0) =
      [k.dataWriteAutoinc] :: (List.range 8).map fun i => [k.addr (BitVec.ofNat 4 (2 * i)), 0x00] := by
  rw [modeAndWritesFrames_digits k 0 (by decide)]
  rfl

/-- What an observer sees of an operation made of mode select and writes. -/
theorem State.framesSeen_modeAndWrites (s : State) (ws : List (BitVec 4 × Byte)) :
    ∃ es, (s.modeAndWrites ws).trace = s.trace ++ es ∧ framesSeen es = modeAndWritesFrames s.codes ws :=
  ⟨_, (s.modeAndWrites_block ws).1, framesSeen_modeAndWritesEvents _ ws⟩

/-- What an observer sees of a command frame and two rounds of mode select and writes. -/
theorem State.framesSeen_twoRounds (s : State) (c : Command) (ws vs : List (BitVec 4 × Byte)) :
    ∃ es, (s.twoRounds c ws vs).trace = s.trace ++ es ∧
      framesSeen es = [encodeCommand s.codes c] :: modeAndWritesFrames s.codes ws ++ modeAndWritesFrames s.codes vs := by
  refine ⟨_, s.twoRounds_trace c ws vs, ?_⟩
  rw [modeAndWritesEvents_eq, modeAndWritesEvents_eq, ← List.flatMap_cons, ← List.flatMap_append,
    framesSeen_flatMap_frameEvents]

/-- Settles O58: the round trip over any list of frames, and each operation's events as the frames of its rule. -/
theorem wiresCarryExactlyTheFrames : Obligations.WiresCarryExactlyTheFrames := by
  refine ⟨framesSeen_flatMap_frameEvents, fun ps start n s t he => ?_, fun m s t he => ?_, fun b on s t he => ?_⟩
  · obtain ⟨hg, rfl⟩ := guarded_next_iff.mp he
    obtain ⟨hn, _, _⟩ := digitsInRange_iff.mp (digitsGuard_none_iff.mp (or_none_iff.mp hg).2)
    rw [← modeAndWritesFrames_digits s.codes start hn]
    exact s.framesSeen_modeAndWrites _
  · obtain ⟨_, rfl⟩ := guarded_next_iff.mp he
    rw [← modeAndWritesFrames_leds]
    exact s.framesSeen_modeAndWrites _
  · obtain ⟨_, rfl⟩ := guarded_next_iff.mp he
    rw [← modeAndWritesFrames_leds_off, ← modeAndWritesFrames_digits_blank]
    exact s.framesSeen_twoRounds (.display on (BitVec.ofNat 3 b)) _ _

/-! ## The `F_WR` frame (R33, R92) -/

/-- The three calls of a frame that only writes complete while initialised, and leave what `sendFrame` leaves. -/
theorem exec_frame_calls {s : State} (bs : List Byte) (h : s.inited = true) : ∃ t₁ t₂,
    exec .startTransaction s = .next t₁ ∧ exec (.writeBytes bs) t₁ = .next t₂ ∧
    exec .endTransaction t₂ = .next ((s.sendFrame bs).withRet .none) :=
  have bus : ∀ {u : State}, u.inited = true → u.busGuard = none := State.busGuard_none_iff.mpr
  ⟨s.startTxn.withRet .none, (s.startTxn.sendBytes bs).withRet .none, guarded_next_iff.mpr ⟨bus h, rfl⟩,
    guarded_next_iff.mpr ⟨bus h, rfl⟩, guarded_next_iff.mpr ⟨bus h, rfl⟩⟩

/-- A frame sent on an idle bus leaves it idle. -/
theorem State.BusIdle.sendFrame {s : State} (bs : List Byte) (h : s.BusIdle) : (s.sendFrame bs).BusIdle :=
  ⟨h.inited, rfl, State.sendFrame_framing bs h.framing⟩

theorem State.BusIdle.withRet {s : State} (h : s.BusIdle) (r : Ret) : (s.withRet r).BusIdle :=
  ⟨h.inited, h.txnOpen, h.framing⟩

/-- A frame that wrote something leaves the lines released. -/
theorem State.sendFrame_released (s : State) (bs : List Byte) (v : Byte) :
    (s.sendFrame (bs ++ [v])).pins.Released := by
  rw [State.sendFrame_pins, foldl_frameEvents]
  exact ⟨rfl, rfl, rfl⟩

/-- Settles O19: the three calls are one `sendFrame`, and the frame's laws say what it leaves. -/
theorem writeFrameStoresOneRegister : Obligations.WriteFrameStoresOneRegister := by
  intro s a v hs
  obtain ⟨t₁, t₂, h₁, h₂, h₃⟩ := exec_frame_calls [s.codes.addr a, v] hs.inited
  refine ⟨t₁, t₂, _, h₁, h₂, h₃, ?_, ?_, (hs.sendFrame _).withRet _, s.sendFrame_released [s.codes.addr a] v,
    (State.sendFrame_onlyBus _ hs.txnOpen).withRet _, fun _ hk => ?_⟩
  · simp [frameEvents, writeEvents]
  · simp
  · rw [State.withRet_peer, ← State.frameWrite, State.frameWrite_peer a v hs.framing hk]
    exact ⟨fun b => Memory.read_write _ _ b v, rfl, rfl, rfl⟩

/-! ## How the trace grows (R42, R161, R174) -/

/-- What holds of no event and of the events of every shared operation, and of two such lists joined. -/
structure HoldsOfOps (Q : List Event → Prop) : Prop where
  nil    : Q []
  append : ∀ {es fs}, Q es → Q fs → Q (es ++ fs)
  strobe : ∀ b, Q [.strobe b]
  write  : ∀ bytes, Q (writeEvents bytes)
  read   : ∀ bits, Q (readEvents bits)
  up     : Q [.platformInit]
  down   : Q [.platformDeinit]

/-- The trace is `base` and then events of which `Q` holds. -/
def State.Grew (base : List Event) (Q : List Event → Prop) (s : State) : Prop := ∃ es, s.trace = base ++ es ∧ Q es

theorem State.Grew.append {base new : List Event} {Q : List Event → Prop} {s t : State} (hQ : HoldsOfOps Q)
    (h : s.Grew base Q) (hn : Q new) (ht : t.trace = s.trace ++ new) : t.Grew base Q := by
  obtain ⟨es, hs, hes⟩ := h
  exact ⟨es ++ new, by rw [ht, hs, List.append_assoc], hQ.append hes hn⟩

theorem State.Grew.silent {base : List Event} {Q : List Event → Prop} {s t : State} (h : s.Grew base Q)
    (ht : t.trace = s.trace) : t.Grew base Q := by
  rwa [State.Grew, ht]

/-- Every shared operation only appends to the trace, and what it appends keeps `Q`. -/
theorem closed_grew (base : List Event) {Q : List Event → Prop} (hQ : HoldsOfOps Q) : Closed (State.Grew base Q) where
  start    := fun s _ h => h.append hQ (hQ.strobe false) s.startTxn_trace
  send     := fun s bs _ h => h.append hQ (hQ.write bs) (s.sendBytes_trace bs)
  recv     := fun s n _ h => h.append hQ (hQ.read (s.answers (8 * n))) (s.recvBytes_trace n)
  stop     := fun s _ h => h.append hQ (hQ.strobe true) s.endTxn_trace
  up       := fun s _ h => h.append hQ hQ.up s.platformUp_trace
  down     := fun s _ _ h => h.append hQ hQ.down s.platformDown_trace
  zeroed   := fun _ h => h.silent rfl
  sampled  := fun _ _ h => h.silent rfl
  chip     := fun s b h => h.silent (s.chipFrame_trace b)
  working  := fun _ _ h => h.silent rfl
  returned := fun s r h => h.silent (s.withRet_trace r)

/-- What holds of the events of every shared operation holds of all a step appends. -/
theorem step_grew {Q : List Event → Prop} (hQ : HoldsOfOps Q) {s t : State} (h : step s = .next t) :
    t.Grew s.trace Q :=
  step_closed (closed_grew s.trace hQ) (fun s hg => hg.silent s.popRequest_trace) h
    ⟨[], (List.append_nil _).symm, hQ.nil⟩

/-- Every delay among the events is `T_HALF` or `T_SETTLE`. -/
def OnlyTwoDelays (es : List Event) : Prop := ∀ n, Event.delay n ∈ es → n = Config.tHalf ∨ n = 5

theorem onlyTwoDelays_append {es fs : List Event} (he : OnlyTwoDelays es) (hf : OnlyTwoDelays fs) :
    OnlyTwoDelays (es ++ fs) := fun n h => (List.mem_append.mp h).elim (he n) (hf n)

theorem onlyTwoDelays_flatMap {α : Type} {f : α → List Event} (h : ∀ x, OnlyTwoDelays (f x)) (xs : List α) :
    OnlyTwoDelays (xs.flatMap f) := fun n hn => by
  obtain ⟨x, _, hx⟩ := List.mem_flatMap.mp hn
  exact h x n hx

theorem onlyTwoDelays_writeCell (b : Bool) : OnlyTwoDelays (writeCell b) := by simp [OnlyTwoDelays, writeCell]

theorem onlyTwoDelays_readCell (b : Bool) : OnlyTwoDelays (readCell b) := by simp [OnlyTwoDelays, readCell]

/-- The bit cells wait `T_HALF`, the turn to input `T_SETTLE`; nothing else waits. -/
theorem holdsOfOps_onlyTwoDelays : HoldsOfOps OnlyTwoDelays where
  nil    := by simp [OnlyTwoDelays]
  append := onlyTwoDelays_append
  strobe := fun _ => by simp [OnlyTwoDelays]
  write  := fun bytes => onlyTwoDelays_append (es := [.dataOut]) (by simp [OnlyTwoDelays])
    (onlyTwoDelays_flatMap (fun _ => onlyTwoDelays_flatMap onlyTwoDelays_writeCell _) bytes)
  read   := fun bits => onlyTwoDelays_append (es := [.dataIn, .delay Config.tSettle]) (by simp [OnlyTwoDelays])
    (onlyTwoDelays_flatMap onlyTwoDelays_readCell bits)
  up     := by simp [OnlyTwoDelays]
  down   := by simp [OnlyTwoDelays]

/-- Settles O52: each shared operation's events have only the two delays, so a step's have. -/
theorem traceGrowsWithTheTwoDelaysOnly : Obligations.TraceGrowsWithTheTwoDelaysOnly :=
  fun _ _ h => step_grew holdsOfOps_onlyTwoDelays h

/-! ## A byte that reaches the chip alone (R18, R19, R20, R47, R56, R57) -/

@[simp] theorem accessOf_write (n : Nat) : accessOf n 0b00 = .write := rfl
@[simp] theorem accessOf_readKeys (n : Nat) : accessOf n 0b10 = .readKeys := rfl

/-- A frame of one command byte: the chip obeys it. -/
theorem Peer.frame_command {k : CommandBytes} (hk : k.Ok) (p : Peer) (n : Nat) (c : Command) :
    p.frame k n false [encodeCommand k c] = p.command n c := by
  simp only [Peer.frame, decodeCommand_encode hk, Peer.writeFrame]

/-- A frame of one byte that is no command's: nothing is known of the chip (log 19). -/
theorem Peer.frame_noCommand {k : CommandBytes} {b : Byte} (h : ∀ c, b ≠ encodeCommand k c) (p : Peer) (n : Nat) :
    p.frame k n false [b] = Peer.unknown n := by
  simp only [Peer.frame, decodeCommand_none h, Peer.writeFrame]

/-- On an idle bus a byte at the head of the queue reaches the chip, and nothing else changes. -/
theorem step_wire_idle {s : State} {b : Byte} {rest : List Request} (h : s.requests = .wire b :: rest)
    (hf : s.framing = .idle) :
    step s = .next { s with
      requests := rest
      peer := s.peer.frame s.codes (s.freeCount + 2) false [b]
      freeCount := s.freeCount + 3 } := by
  rw [step_wire h, State.chipFrame_idle (s := { s with requests := rest }) b hf]

/-- Settles O59: the byte is a frame of its own, obeyed where it is a command's; where it is none's,
nothing is known of the chip. -/
theorem everyByteReachesTheChip : Obligations.EveryByteReachesTheChip := by
  intro s b rest h hf hk
  have obeyed : ∀ {c : Command}, b = encodeCommand s.codes c →
      s.peer.frame s.codes (s.freeCount + 2) false [b] = s.peer.command (s.freeCount + 2) c := by
    rintro c rfl
    exact Peer.frame_command hk _ _ c
  refine ⟨_, step_wire_idle h hf, rfl, fun tst adr acc hb => ?_, fun on br hb => obeyed hb, fun a hb => obeyed hb,
    fun hb => ⟨_, Peer.frame_noCommand hb _ _⟩⟩
  simp only [obeyed hb, Peer.command]
  exact ⟨trivial, trivial, trivial, fun h => h ▸ accessOf_write _, fun h => h ▸ accessOf_readKeys _⟩

end Sys2Proof.Machine
end

section
/-! The encoding (spec/30_encoding.md): instruction bytes and the rows of the opcode table, for every choice of distinct
bytes as the parameters `CMD_*`. -/

namespace Sys2Proof.Machine

/-! ## Distinct bytes (R57) -/

theorem nodup_allCommands : allCommands.Nodup := by decide

/-- The premise on the parameters is that two commands with one byte are one command. -/
theorem CommandBytes.ok_iff_injective {k : CommandBytes} : k.Ok ↔ Function.Injective (encodeCommand k) :=
  ⟨fun hk _ _ h => encodeCommand_injective hk h, fun hinj => nodup_allCommands.map hinj⟩

/-- Settles O8: `allCommands` lists every command, each once, so distinct bytes along it are an injective encoder. -/
theorem commandBytesAreDistinct : Obligations.CommandBytesAreDistinct :=
  ⟨CommandBytes.defaults_ok, fun _ => CommandBytes.ok_iff_injective⟩

/-! ## Rows and commands (R57, R64) -/

/-- The row that stands for an instruction's command is that instruction. -/
theorem instr_of_command {c : Command} {i : Instr} (h : i.command = some c) : c.instr = .ok i := by
  cases i <;> cases h <;> rfl

/-- An instruction byte's operands have no precondition. -/
theorem wf_of_command {c : Command} {i : Instr} (h : i.command = some c) : i.wf = true := by
  cases i <;> cases h <;> rfl

/-- An encoding is one byte, that of the instruction's command. -/
theorem encode_eq_some_iff {k : CommandBytes} {i : Instr} {bs : List Byte} :
    encode k i = some bs ↔ ∃ c, i.command = some c ∧ bs = [encodeCommand k c] := by
  simp only [encode, Option.map_eq_some_iff, eq_comm (a := bs)]

/-! ## The decoder -/

/-- Only an instruction byte decodes: its class first, then its row. -/
theorem decode_cons_eq_ok_iff {k : CommandBytes} {b : Byte} {rest rest' : List Byte} {i : Instr} :
    decode k (b :: rest) = .ok (i, rest') ↔
      ∃ c, decodeCommand k b = .ok c ∧ c.instr = .ok i ∧ rest = rest' := by
  cases hb : decodeCommand k b with
  | error e => simp [decode, hb]
  | ok c => cases hi : c.instr <;> simp [decode, hb, hi]

/-- A command's byte decodes to the instruction whose command it is, followed by the rest. -/
theorem decode_encodeCommand_cons {k : CommandBytes} (hk : k.Ok) {c : Command} {i : Instr} (h : i.command = some c)
    (rest : List Byte) : decode k (encodeCommand k c :: rest) = .ok (i, rest) :=
  decode_cons_eq_ok_iff.mpr ⟨c, decodeCommand_encode hk c, instr_of_command h, rfl⟩

/-- A command's byte whose command no row stands for is told by that name. -/
theorem decode_encodeCommand_noTableRow {k : CommandBytes} (hk : k.Ok) {c : Command}
    (h : c.instr = .error .noTableRow) (rest : List Byte) :
    decode k (encodeCommand k c :: rest) = .error .noTableRow := by
  simp only [decode, decodeCommand_encode hk, h]

/-- A byte that is no command's is told to be of no class. -/
theorem decode_noClass {k : CommandBytes} {b : Byte} (h : ∀ c ∈ allCommands, b ≠ encodeCommand k c)
    (rest : List Byte) : decode k (b :: rest) = .error .noClass := by
  simp only [decode, decodeCommand_none fun c => h c (mem_allCommands c)]

/-- Decoding undoes encoding, whatever bytes follow. -/
theorem decode_encode_append {k : CommandBytes} (hk : k.Ok) {i : Instr} {bs : List Byte} (h : encode k i = some bs)
    (rest : List Byte) : decode k (bs ++ rest) = .ok (i, rest) := by
  obtain ⟨c, hc, rfl⟩ := encode_eq_some_iff.mp h
  exact decode_encodeCommand_cons hk hc rest

/-- A byte that decodes is the byte of the command of a well-formed instruction. -/
theorem encode_of_decode {k : CommandBytes} {b : Byte} {rest rest' : List Byte} {i : Instr}
    (h : decode k (b :: rest) = .ok (i, rest')) : encode k i = some [b] ∧ i.wf = true := by
  obtain ⟨c, hb, hi, -⟩ := decode_cons_eq_ok_iff.mp h
  have hc : i.command = some c := command_of_instr hi
  exact ⟨encode_eq_some_iff.mpr ⟨c, hc, by rw [encode_decodeCommand hb]⟩, wf_of_command hc⟩

/-- Settles O7: both ways go through the command, which the byte and the instruction have in common. -/
theorem decodeAndEncodeAgree : Obligations.DecodeAndEncodeAgree :=
  fun _ hk => ⟨fun _ _ rest _ h => decode_encode_append hk h rest, fun _ _ _ => encode_of_decode⟩

/-! ## The default bytes (R57) -/

/-- Settles O6: each word is its command's default byte, written out; the two of no class are none's. -/
theorem instructionBytesOfTheTableDecode : Obligations.InstructionBytesOfTheTableDecode := by
  rintro k rfl
  have row : ∀ {i : Instr} {b : Byte}, encode CommandBytes.defaults i = some [b] →
      decode CommandBytes.defaults [b] = .ok (i, []) :=
    fun h => decode_encode_append CommandBytes.defaults_ok h []
  exact ⟨row rfl, row rfl, row rfl, row rfl, row rfl, row rfl, row rfl,
    decode_noClass (by decide) [],
    decode_encodeCommand_noTableRow CommandBytes.defaults_ok (c := .dataMode .test .autoInc 0b00) rfl [],
    decode_noClass (by decide) []⟩

end Sys2Proof.Machine
end

section
/-! The Bus Transport (spec/40_bus_transport.md): when its six operations complete, the lines and the clock in a transfer,
and what a frame that ends does to the chip. -/

namespace Sys2Proof.Machine

/-! ## The six operations complete (R72 to R77, R152) -/

section
variable {s : State} (h : s.inited = true)
include h

theorem exec_startTransaction_of_inited : exec .startTransaction s = .next (s.startTxn.withRet .none) :=
  guarded_next_iff.mpr ⟨State.busGuard_none_iff.mpr h, rfl⟩

theorem exec_endTransaction_of_inited : exec .endTransaction s = .next (s.endTxn.withRet .none) :=
  guarded_next_iff.mpr ⟨State.busGuard_none_iff.mpr h, rfl⟩

theorem exec_writeBytes_of_inited (bytes : List Byte) :
    exec (.writeBytes bytes) s = .next ((s.sendBytes bytes).withRet .none) :=
  guarded_next_iff.mpr ⟨State.busGuard_none_iff.mpr h, rfl⟩

theorem exec_readBytes_of_inited (count : Nat) :
    exec (.readBytes count) s = .next ((s.recvBytes count).withRet (.bytes (s.received count))) :=
  guarded_next_iff.mpr ⟨State.busGuard_none_iff.mpr h, rfl⟩

theorem exec_deinit_of_inited (ho : s.txnOpen = false) : exec .deinit s = .next (s.platformDown.withRet .none) :=
  guarded_next_iff.mpr ⟨State.deinitGuard_none_iff.mpr ⟨h, ho⟩, rfl⟩

end

theorem exec_init_of_not_inited {s : State} (h : s.inited = false) : exec .init s = .next (s.platformUp.withRet .none) :=
  guarded_next_iff.mpr ⟨State.initGuard_none_iff.mpr h, rfl⟩

/-! ## The framing premise kept by one operation (R176; log 17, 18) -/

/-- The start of a frame on an idle bus: the chip waits. -/
theorem State.startTxn_idle {s : State} (h : s.framing = .idle) :
    s.startTxn.framing = .opened ∧ s.startTxn.peer = s.peer := by
  simp [h, Framing.next, Peer.after]

/-- The first write of a frame: the chip waits. -/
theorem State.sendBytes_opened {s : State} (bytes : List Byte) (h : s.framing = .opened) :
    (s.sendBytes bytes).framing = .wrote bytes ∧ (s.sendBytes bytes).peer = s.peer := by
  simp [h, Framing.next, Peer.after]

/-- The first read of a frame that wrote: the chip waits. -/
theorem State.recvBytes_wrote {s : State} {sent : List Byte} (count : Nat) (h : s.framing = .wrote sent) :
    (s.recvBytes count).framing = .readBack sent ∧ (s.recvBytes count).peer = s.peer := by
  simp [h, Framing.next, Peer.after]

/-- The end of a frame that only wrote: the frame reaches the chip. -/
theorem State.endTxn_wrote {s : State} {bytes : List Byte} (h : s.framing = .wrote bytes) :
    s.endTxn.framing = .idle ∧ s.endTxn.peer = s.peer.frame s.codes s.freeCount false bytes := by
  simp [h, Framing.next, Peer.after]

/-- The end of a frame that wrote and read: the frame reaches the chip. -/
theorem State.endTxn_readBack {s : State} {bytes : List Byte} (h : s.framing = .readBack bytes) :
    s.endTxn.framing = .idle ∧ s.endTxn.peer = s.peer.frame s.codes s.freeCount true bytes := by
  simp [h, Framing.next, Peer.after]

/-! ## The frames with data bytes, and the key-scan frame (R33, R47, R56, R121) -/

/-- An address and one data byte: the chip stores it there, in every data mode (log 21). -/
theorem Peer.frame_addr_store {k : CommandBytes} (hk : k.Ok) (p : Peer) (n : Nat) (a : BitVec 4) (v : Byte) :
    p.frame k n false [k.addr a, v] = (p.command n (.addr a)).store n 0 v := by
  simp only [Peer.frame, decodeCommand_addr hk, Peer.writeFrame]

/-- An address and two or more data bytes, in normal write mode: the chip stores them one by one (log 19). -/
theorem Peer.frame_addr_storeAll {k : CommandBytes} (hk : k.Ok) {p : Peer} (hm : p.mode.writes) (n : Nat)
    (a : BitVec 4) {vs : List Byte} (hvs : vs ≠ []) (v : Byte) :
    p.frame k n false (k.addr a :: (vs ++ [v])) = (p.command n (.addr a)).storeAll n (vs ++ [v]) := by
  obtain ⟨u, w, ws, hu⟩ : ∃ u w ws, vs ++ [v] = u :: w :: ws := by
    match vs, hvs with
    | [u], _ => exact ⟨u, v, [], rfl⟩
    | u :: w :: ws, _ => exact ⟨u, w, ws ++ [v], rfl⟩
  simp only [hu, Peer.frame, decodeCommand_addr hk, Peer.writeFrame, if_pos hm]

/-- A byte that selects read key scan, and a read: the chip's mode is the byte's, and the pointer moves as it says. -/
theorem Peer.frame_readKeys {k : CommandBytes} (hk : k.Ok) (p : Peer) (n : Nat) (tst : Testing) (adr : Addressing) :
    p.frame k n true [encodeCommand k (.dataMode tst adr 0b10)] =
      (p.command n (.dataMode tst adr 0b10)).advance n 0 := by
  simp only [Peer.frame, decodeCommand_encode hk, Peer.readFrame, if_true]

/-! ## The lines in a write (R51, R53, R74) -/

/-- The events of one byte, written out cell by cell, bit 0 first. -/
theorem byteCells_eq (v : Byte) : byteCells v = (List.range 8).flatMap fun j => writeCell (v.getLsbD j) := by
  rw [byteCells, bitsOfByte, List.flatMap_map]

/-- A write leaves the strobe where it was and the data line an output. -/
theorem foldl_writeEvents_stb_dioDir (p : Pins) (bytes : List Byte) :
    ((writeEvents bytes).foldl Pins.apply p).stb = p.stb ∧ ((writeEvents bytes).foldl Pins.apply p).dioDir = .out := by
  rw [foldl_writeEvents]
  split <;> exact ⟨rfl, rfl⟩

/-- A write whose last byte is `v` leaves the clock high and bit 7 of `v` on the line. -/
theorem foldl_writeEvents_append_singleton (p : Pins) (bytes : List Byte) (v : Byte) :
    (writeEvents (bytes ++ [v])).foldl Pins.apply p =
      { p with dioDir := .out, clk := true, dioOut := v.getLsbD 7 } := by
  rw [foldl_writeEvents, List.getLast?_concat]

/-- A write keeps to the bus, in a frame or not. -/
theorem State.sendBytes_onlyBus (s : State) (bytes : List Byte) : s.OnlyBus (s.sendBytes bytes) where
  debounce := rfl
  txnOpen  := rfl
  inited   := rfl
  raw      := Work.afterBytes_raw _ _
  acc      := Work.afterBytes_acc _ _
  ksel     := Work.afterBytes_ksel _ _
  requests := rfl
  draws    := rfl
  codes    := rfl

/-! ## The clock in a transfer (R78) -/

/-- Bit cells with one fall and one rise each, in this order, are as many pairs of a fall and a rise. -/
theorem clockEdges_flatMap_cell {cell : Bool → List Event} (hc : ∀ b, clockEdges (cell b) = [false, true])
    (bits : List Bool) :
    clockEdges (bits.flatMap cell) = (List.replicate bits.length [false, true]).flatten := by
  induction bits with
  | nil => rfl
  | cons b bits ih =>
    rw [List.flatMap_cons, clockEdges_append, hc, ih, List.length_cons, List.replicate_succ, List.flatten_cons]

theorem clockEdges_writeEvents (bytes : List Byte) :
    clockEdges (writeEvents bytes) = (List.replicate (8 * bytes.length) [false, true]).flatten := by
  have hbits : bytes.flatMap byteCells = (bytes.flatMap bitsOfByte).flatMap writeCell := List.flatMap_assoc.symm
  rw [writeEvents, hbits, ← length_flatMap_bitsOfByte]
  exact clockEdges_flatMap_cell (fun _ => rfl) _

theorem clockEdges_readEvents (bits : List Bool) :
    clockEdges (readEvents bits) = (List.replicate bits.length [false, true]).flatten :=
  clockEdges_flatMap_cell (fun _ => rfl) bits

/-! ## The statements -/

/-- Settles O13: the frame that ends is one of six shapes, and each shape's law says what the chip makes of it. -/
theorem endTransactionClosesFrame : Obligations.EndTransactionClosesFrame := by
  intro s hi
  refine ⟨_, exec_endTransaction_of_inited hi, rfl, rfl, rfl, rfl, hi, rfl, rfl, rfl, rfl, fun hk => ?_⟩
  simp only [State.withRet_framing, State.withRet_peer]
  refine ⟨fun tst adr acc h => ?_, fun on br h => ?_, fun a h => ?_, fun a v h => ?_, fun a vs v hvs h hacc htst => ?_,
    fun tst adr h => ?_⟩
  · obtain ⟨hf, hp⟩ := State.endTxn_wrote h
    rw [hp, Peer.frame_command hk]
    exact ⟨hf, rfl, rfl, rfl, fun e => e ▸ accessOf_write s.freeCount,
      fun e => e ▸ accessOf_readKeys s.freeCount⟩
  · obtain ⟨hf, hp⟩ := State.endTxn_wrote h
    exact ⟨hf, hp.trans (Peer.frame_command hk _ _ (.display on br))⟩
  · obtain ⟨hf, hp⟩ := State.endTxn_wrote h
    exact ⟨hf, hp.trans (Peer.frame_command hk _ _ (.addr a))⟩
  · obtain ⟨hf, hp⟩ := State.endTxn_wrote h
    rw [hp, Peer.frame_addr_store hk]
    exact ⟨hf, fun b => Memory.read_write _ _ b v, fun hfix => if_pos hfix, rfl, rfl, rfl⟩
  · obtain ⟨hf, hp⟩ := State.endTxn_wrote h
    rw [hp, Peer.frame_addr_storeAll hk ⟨hacc, htst⟩ _ _ hvs]
    obtain ⟨hread, hkeeps⟩ := Peer.storeAll_keeps (s.peer.command s.freeCount (.addr a)) s.freeCount (vs ++ [v])
    have hfixed := Peer.storeAll_fixed (s.peer.command s.freeCount (.addr a)) s.freeCount vs v
    exact ⟨hf, hread, fun hfix => (hfixed hfix).symm, hkeeps⟩
  · obtain ⟨hf, hp⟩ := State.endTxn_readBack h
    rw [hp, Peer.frame_readKeys hk]
    exact ⟨hf, rfl, rfl, rfl, rfl, fun hfix => if_pos hfix⟩

/-- Settles O14: the cells of `byteCells`, and the lines after the last of them. -/
theorem writeBytesClocksOutLsbFirst : Obligations.WriteBytesClocksOutLsbFirst := by
  intro bytes s hi
  obtain ⟨hstb, hdir⟩ := foldl_writeEvents_stb_dioDir s.pins bytes
  refine ⟨_, exec_writeBytes_of_inited hi bytes, ?_, ?_, hstb, hdir, ?_, ?_, rfl,
    (s.sendBytes_onlyBus bytes).withRet _, State.sendBytes_opened bytes⟩
  · rw [State.withRet_trace, State.sendBytes_trace, writeEvents, funext byteCells_eq]
    rfl
  · rw [State.withRet_trace, State.sendBytes_trace, List.length_append, length_writeEvents]
  · rintro rfl
    exact ⟨rfl, rfl⟩
  · rintro front v rfl
    rw [State.withRet_pins, State.sendBytes_pins, foldl_writeEvents_append_singleton]
    exact ⟨rfl, rfl⟩

/-- Settles O15: the read cells of the wire's answers, and the bytes assembled from them bit by bit. -/
theorem readBytesAssemblesLsbFirst : Obligations.ReadBytesAssemblesLsbFirst := by
  intro count s hi
  have hpins : (s.recvBytes count).pins =
      { s.pins with dioDir := .input, clk := if count = 0 then s.pins.clk else true } := by
    rw [State.recvBytes_pins, foldl_readEvents]
    simp [← List.length_eq_zero_iff]
  refine ⟨_, s.answers (8 * count), s.received count, exec_readBytes_of_inited hi count, rfl, rfl, ?_, rfl,
    length_bytesOfBits _ _, fun m j => getLsbD_bytesOfBits count m j _, ?_⟩
  · rw [State.withRet_trace, State.recvBytes_trace, List.length_append, length_readEvents, State.length_answers]
    omega
  · simp only [State.withRet_pins, hpins]
    exact ⟨trivial, trivial, trivial, fun h => if_pos h, fun h => if_neg h.ne', rfl, rfl, rfl, rfl,
      Work.afterBytes_raw _ _, Work.afterBytes_acc _ _, Work.afterBytes_ksel _ _, rfl,
      fun _ => State.recvBytes_wrote count⟩

/-- Settles O18: every bit cell is a fall and a rise, and a transfer is bit cells with no other clock edge. -/
theorem clockAlternatesInEveryByte : Obligations.ClockAlternatesInEveryByte := by
  refine ⟨fun bytes s t he => ?_, fun count s t he => ?_⟩
  · obtain ⟨_, rfl⟩ := guarded_next_iff.mp he
    exact ⟨_, rfl, clockEdges_writeEvents bytes, fun h => (foldl_writeEvents_lines s.pins bytes h).1⟩
  · obtain ⟨_, rfl⟩ := guarded_next_iff.mp he
    refine ⟨_, rfl, ?_, fun h => (foldl_readEvents_lines s.pins (s.answers (8 * count)) h).1⟩
    rw [clockEdges_readEvents, State.length_answers]

/-- Settles O12: the fields of `startTxn`, and the chip waits for the frame's end. -/
theorem startTransactionOpensFrame : Obligations.StartTransactionOpensFrame := fun _ hi =>
  ⟨_, exec_startTransaction_of_inited hi, rfl, rfl, rfl, rfl, hi, rfl, rfl, rfl, rfl, State.startTxn_idle⟩

/-- Settles O16: the fields of `platformUp`. -/
theorem initCallsPlatformInit : Obligations.InitCallsPlatformInit := fun _ hi =>
  ⟨_, exec_init_of_not_inited hi, rfl, rfl, rfl, rfl, rfl, rfl, rfl, rfl, rfl, rfl, rfl, rfl⟩

/-- Settles O17: the fields of `platformDown`. -/
theorem deinitCallsPlatformDeinit : Obligations.DeinitCallsPlatformDeinit := fun _ hi ho =>
  ⟨_, exec_deinit_of_inited hi ho, rfl, rfl, rfl, ho, rfl, rfl, rfl, rfl, rfl, rfl⟩

end Sys2Proof.Machine
end

section
/-! The Register Protocol (spec/41_register_protocol.md): its frames on the wires and at the chip, the hex and character
paths over the digit operations, and the Segment Encoding Table. -/

namespace Sys2Proof.Machine

/-! ## The protocol operations complete (R94 to R97, R152) -/

/-- Past the protocol guard only the arguments' own check is left. -/
theorem guarded_protocol_of_inited {s t : State} {g : Option Refusal} (h : s.inited = true) (ho : s.txnOpen = false)
    (hg : g = none) : guarded (s.protocolGuard.or g) t = .next t :=
  guarded_next_iff.mpr ⟨or_none_iff.mpr ⟨State.protocolGuard_none_iff.mpr ⟨h, ho⟩, hg⟩, rfl⟩

section
variable {s : State} (h : s.inited = true) (ho : s.txnOpen = false)
include h ho

theorem exec_setDigits_of_inited {ps : List Byte} {start count : Nat} (hn : count ≤ ps.length) (hs : start ≤ 7)
    (he : start + count ≤ 8) :
    exec (.setDigits ps start count) s = .next ((s.writeDigits ps start count).withRet .none) :=
  guarded_protocol_of_inited h ho (digitsGuard_none_iff.mpr (digitsInRange_iff.mpr ⟨hn, hs, he⟩))

theorem exec_setLeds_of_inited (m : Byte) : exec (.setLeds m) s = .next ((s.writeLeds m).withRet .none) :=
  guarded_next_iff.mpr ⟨State.protocolGuard_none_iff.mpr ⟨h, ho⟩, rfl⟩

/-- `configureDisplay` is a display-control frame, a round for the LEDs and a round for the digits (R94). -/
theorem exec_configureDisplay_of_inited {b : Nat} (on : Bool) (hb : b ≤ 7) :
    exec (.configureDisplay b on) s = .next ((s.twoRounds (.display on (BitVec.ofNat 3 b)) (ledWrites 0x00)
      (digitWrites (List.replicate 8 0x00) 0)).withRet .none) :=
  guarded_protocol_of_inited h ho (brightnessGuard_none_iff.mpr hb)

end

/-! ## The events of a round (R93, R96, R97) -/

theorem modeAndWritesEvents_digits (k : CommandBytes) {ps : List Byte} {n : Nat} (start : Nat) (h : n ≤ ps.length) :
    modeAndWritesEvents k (digitWrites (ps.take n) start) =
      frameEvents [k.dataWriteAutoinc] ++ (List.range n).flatMap fun i =>
        frameEvents [k.addr (BitVec.ofNat 4 (2 * (start + i))), ps.getD i 0] := by
  rw [modeAndWritesEvents_eq, modeAndWritesFrames_digits k start h, List.flatMap_cons, List.flatMap_map]

theorem modeAndWritesEvents_leds (k : CommandBytes) (m : Byte) :
    modeAndWritesEvents k (ledWrites m) = frameEvents [k.dataWriteAutoinc] ++ (List.range 8).flatMap fun i =>
      frameEvents [k.addr (BitVec.ofNat 4 (2 * i + 1)), if m.getLsbD i then 0x01 else 0x00] := by
  rw [modeAndWritesEvents_eq, modeAndWritesFrames_leds, List.flatMap_cons, List.flatMap_map]

/-- `setLeds(0x00)` in `configureDisplay` (R94). -/
theorem modeAndWritesEvents_leds_off (k : CommandBytes) :
    modeAndWritesEvents k (ledWrites 0x00) = frameEvents [k.dataWriteAutoinc] ++ (List.range 8).flatMap fun i =>
      frameEvents [k.addr (BitVec.ofNat 4 (2 * i + 1)), 0x00] := by
  rw [modeAndWritesEvents_eq, modeAndWritesFrames_leds_off, List.flatMap_cons, List.flatMap_map]

/-- The eight blank digits in `configureDisplay` (R94). -/
theorem modeAndWritesEvents_digits_blank (k : CommandBytes) :
    modeAndWritesEvents k (digitWrites (List.replicate 8 0x00) 0) =
      frameEvents [k.dataWriteAutoinc] ++ (List.range 8).flatMap fun i =>
        frameEvents [k.addr (BitVec.ofNat 4 (2 * i)), 0x00] := by
  have hf : modeAndWritesFrames k (digitWrites (List.replicate 8 0x00) 0) = _ := modeAndWritesFrames_digits_blank k
  rw [modeAndWritesEvents_eq, hf, List.flatMap_cons, List.flatMap_map]

theorem State.modeAndWrites_trace (s : State) (ws : List (BitVec 4 × Byte)) :
    (s.modeAndWrites ws).trace = s.trace ++ modeAndWritesEvents s.codes ws := (s.modeAndWrites_block ws).1

theorem State.length_modeAndWrites_trace (s : State) (ws : List (BitVec 4 × Byte)) :
    (s.modeAndWrites ws).trace.length = s.trace.length + (43 + 83 * ws.length) := by
  rw [State.modeAndWrites_trace, List.length_append, length_modeAndWritesEvents]

theorem State.length_twoRounds_trace (s : State) (c : Command) (ws vs : List (BitVec 4 × Byte)) :
    (s.twoRounds c ws vs).trace.length = s.trace.length + (129 + 83 * ws.length + 83 * vs.length) := by
  simp only [State.twoRounds_trace, List.length_append, length_frameEvents, length_modeAndWritesEvents,
    List.length_singleton]
  omega

/-! ## One command byte (R91) -/

/-- Settles O20: the three calls are one `frameCmd`, and the chip's law for a command says what it obeys. -/
theorem commandFrameIsObeyed : Obligations.CommandFrameIsObeyed := by
  intro s c hs
  obtain ⟨t₁, t₂, h₁, h₂, h₃⟩ := exec_frame_calls [encodeCommand s.codes c] hs.inited
  refine ⟨t₁, t₂, _, h₁, h₂, h₃, ?_, ?_, (hs.sendFrame _).withRet _, s.sendFrame_released [] _,
    (State.sendFrame_onlyBus _ hs.txnOpen).withRet _, fun hk => ?_⟩
  · simp [frameEvents, writeEvents]
  · simp
  · rw [State.withRet_peer, ← State.frameCmd, State.frameCmd_peer c hs.framing hk]
    refine ⟨Peer.command_dr _ _ c, ?_⟩
    cases c with
    | dataMode tst adr acc => exact ⟨rfl, rfl, rfl, fun e => e ▸ accessOf_write (s.freeCount + 2),
        fun e => e ▸ accessOf_readKeys (s.freeCount + 2)⟩
    | display on br => rfl
    | addr a => rfl

/-! ## The digits (R95, R96) -/

/-- Settles O25: `setDigits` is one round of digit writes, and the last byte written at an address stands there. -/
theorem setDigitsWritesEachDigit : Obligations.SetDigitsWritesEachDigit := by
  intro ps start n s hi ho hn hs he
  have hlen : (ps.take n).length = n := List.length_take_of_le hn
  refine ⟨_, exec_setDigits_of_inited hi ho hn hs he, ?_, ?_, rfl, s.modeAndWrites_released _,
    (State.modeAndWrites_onlyBus _ ho).withRet _, fun hf hk => ?_⟩
  · rw [← modeAndWritesEvents_digits s.codes start hn]
    exact s.modeAndWrites_trace _
  · rw [State.withRet_trace, State.writeDigits, State.length_modeAndWrites_trace, length_digitWrites, hlen]
  · obtain ⟨hframing, hread, hmode, hon, hbr⟩ := State.modeAndWrites_chip (digitWrites (ps.take n) start) hf hk
    refine ⟨hframing, hmode, hon, hbr, fun i hin => (hread _).trans ?_, fun a ha => (hread a).trans ?_⟩
    · rw [lastWrite_digitWrites_digit _ _ _ _ (hlen.symm ▸ he) (hlen.symm ▸ hin), List.getElem?_take_of_lt hin]
    · exact lastWrite_digitWrites_other _ _ _ _ (hlen.symm ▸ he) (hlen.symm ▸ ha)

/-- A single-digit call runs as the multi-digit call of one pattern (R95). -/
theorem exec_setDigit (p : Byte) (position : Nat) (s : State) :
    exec (.setDigit p position) s = exec (.setDigits [p] position 1) s := rfl

/-- Settles O26: O25 for one pattern. -/
theorem setDigitWritesOneDigit : Obligations.SetDigitWritesOneDigit := by
  intro p position s hi ho hp
  obtain ⟨t, hexec, htrace, hlen, hret, hpins, hbus, hchip⟩ :=
    setDigitsWritesEachDigit [p] position 1 s hi ho le_rfl hp (by omega)
  refine ⟨t, (exec_setDigit p position s).trans hexec, hexec, ?_, hlen, hret, hpins, hbus, fun hf hk => ?_⟩
  · simpa using htrace
  · obtain ⟨hframing, hmode, hon, hbr, hdigit, hother⟩ := hchip hf hk
    refine ⟨hframing, hmode, hon, hbr, fun a => ?_⟩
    split
    case isTrue ha => exact ha ▸ hdigit 0 Nat.zero_lt_one
    case isFalse ha => exact hother a fun i hi => by omega

/-! ## The LEDs (R97) -/

/-- Settles O27: `setLeds` is one round of LED writes, which reach the odd addresses and no other. -/
theorem setLedsWritesAllLeds : Obligations.SetLedsWritesAllLeds := by
  intro m s hi ho
  refine ⟨_, exec_setLeds_of_inited hi ho m, ?_, ?_, rfl, s.modeAndWrites_released _,
    (State.modeAndWrites_onlyBus _ ho).withRet _, fun hf hk => ?_⟩
  · rw [← modeAndWritesEvents_leds]
    exact s.modeAndWrites_trace _
  · rw [State.withRet_trace, State.writeLeds, State.length_modeAndWrites_trace, length_ledWrites]
  · obtain ⟨hframing, hread, hmode, hon, hbr⟩ := State.modeAndWrites_chip (ledWrites m) hf hk
    refine ⟨hframing, hmode, hon, hbr, fun i hi => (hread _).trans ?_, fun a ha => (hread a).trans ?_⟩
    · have hdiv : (2 * i + 1) / 2 = i := by omega
      rw [lastWrite_ledWrites, if_pos (by omega), hdiv, ledByte_eq]
    · have heven : ¬(a % 2 = 1 ∧ a < 16) := fun ⟨hodd, hlt⟩ => ha (a / 2) (by omega) (by omega)
      rw [lastWrite_ledWrites, if_neg heven]

/-! ## The whole display (R94, R103) -/

/-- The LED writes of `configureDisplay`, then its digit writes, leave 0x00 in each of the 16 registers, whatever stood
there. -/
theorem lastWrite_blank {a : Nat} (h : a < 16) (old : Option Byte) :
    lastWrite (digitWrites (List.replicate 8 0x00) 0) a (lastWrite (ledWrites 0x00) a old) = some 0x00 := by
  rcases Nat.mod_two_eq_zero_or_one a with heven | hodd
  · have ha : a = 2 * (0 + a / 2) := by omega
    have hi : a / 2 < 8 := by omega
    rw [ha, lastWrite_digitWrites_digit (List.replicate 8 0x00) 0 (a / 2) _ (by decide) hi,
      List.getElem?_replicate_of_lt hi]
  · rw [lastWrite_digitWrites_other _ _ _ _ (by decide) fun i _ => by omega, lastWrite_ledWrites, if_pos ⟨hodd, h⟩]
    simp [ledByte]

/-- At an address that is no register they leave what stood there. -/
theorem lastWrite_blank_other {a : Nat} (h : 16 ≤ a) (old : Option Byte) :
    lastWrite (digitWrites (List.replicate 8 0x00) 0) a (lastWrite (ledWrites 0x00) a old) = old := by
  rw [lastWrite_digitWrites_other (List.replicate 8 0x00) 0 a _ (by decide) fun i (hi : i < 8) => by omega,
    lastWrite_ledWrites, if_neg (by omega)]

/-- Settles O28: the control frame is obeyed, and the two rounds blank every register between them. -/
theorem configureDisplayBlanksEverything : Obligations.ConfigureDisplayBlanksEverything := by
  intro b on s hi ho hb
  refine ⟨_, exec_configureDisplay_of_inited hi ho on hb, ?_, ?_, rfl, State.modeAndWrites_released _ _,
    (State.twoRounds_onlyBus _ _ _ ho).withRet _, fun hf hk => ?_⟩
  · rw [← modeAndWritesEvents_leds_off, ← modeAndWritesEvents_digits_blank]
    exact s.twoRounds_trace _ _ _
  · rw [State.withRet_trace, State.length_twoRounds_trace, length_ledWrites, length_digitWrites, List.length_replicate]
  · obtain ⟨hframing, hread, hmode, hon, hbr⟩ := State.twoRounds_chip (.display on (BitVec.ofNat 3 b)) (ledWrites 0x00)
      (digitWrites (List.replicate 8 0x00) 0) hf hk
    exact ⟨hframing, hmode, hon, hbr, fun a ha => (hread a).trans (lastWrite_blank ha _),
      fun a ha => (hread a).trans (lastWrite_blank_other ha _)⟩

/-- Settles O29: the first call keeps to the bus, so O28 holds of the second too, and both leave the same. -/
theorem configureDisplayIsIdempotent : Obligations.ConfigureDisplayIsIdempotent := by
  intro b on s hs hb
  obtain ⟨t, ht, -, -, -, -, hbus, htchip⟩ := configureDisplayBlanksEverything b on s hs.inited hs.txnOpen hb
  obtain ⟨u, hu, -, -, -, -, -, huchip⟩ := configureDisplayBlanksEverything b on t (hbus.inited.trans hs.inited)
    (hbus.txnOpen.trans hs.txnOpen) hb
  refine ⟨t, u, ht, hu, fun hk => ?_⟩
  obtain ⟨hframing, htmode, hton, htbr, htblank, -⟩ := htchip hs.framing hk
  obtain ⟨-, humode, huon, hubr, hublank, huother⟩ := huchip hframing (hbus.codes.symm ▸ hk)
  refine ⟨fun a => ?_, huon.trans hton.symm, hubr.trans htbr.symm, humode.trans htmode.symm⟩
  rcases Nat.lt_or_ge a 16 with ha | ha
  · rw [hublank a ha, htblank a ha]
  · exact huother a ha

/-! ## The hex and character operations (R99, R100, R102) -/

/-- `setDigits` over a converted list sends the converted elements. -/
theorem exec_setDigits_map (f : Byte → Byte) {vs : List Byte} {start n : Nat} {s : State} (hi : s.inited = true)
    (ho : s.txnOpen = false) (hn : n ≤ vs.length) (hs : start ≤ 7) (he : start + n ≤ 8) :
    ∃ t, exec (.setDigits (vs.map f) start n) s = .next t ∧
      t.trace = s.trace ++ (frameEvents [s.codes.dataWriteAutoinc] ++ (List.range n).flatMap fun i =>
        frameEvents [s.codes.addr (BitVec.ofNat 4 (2 * (start + i))), f (vs.getD i 0)]) := by
  obtain ⟨t, hexec, htrace, -⟩ :=
    setDigitsWritesEachDigit (vs.map f) start n s hi ho (by rwa [List.length_map]) hs he
  have hget : ∀ i ∈ List.range n, (vs.map f).getD i 0 = f (vs.getD i 0) := fun i hin => by
    simp [(List.mem_range.mp hin).trans_le hn]
  refine ⟨t, hexec, htrace.trans ?_⟩
  rw [List.flatMap_congr fun i hin => by rw [hget i hin]]

theorem exec_setDigitHex (v : Byte) (position : Nat) (s : State) :
    exec (.setDigitHex v position) s = exec (.setDigit (hexPattern v) position) s := rfl

/-- The length that is checked is the same before and after the conversion. -/
theorem exec_setDigitsHex (vs : List Byte) (start n : Nat) (s : State) :
    exec (.setDigitsHex vs start n) s = exec (.setDigits (vs.map hexPattern) start n) s := by
  simp only [exec, execSetDigitsHex, execSetDigits, List.length_map]

/-- The count is clamped before it is checked, and the length is the same before and after the conversion. -/
theorem exec_setDigitsChar (cs : List Byte) (start n : Nat) (s : State) :
    exec (.setDigitsChar cs start n) s = exec (.setDigits (cs.map charPattern) start (min n 8)) s := by
  simp only [exec, execSetDigitsChar, execSetDigits, List.length_map]

/-- Settles O30: the two equations, and O25, O26 for the converted patterns. -/
theorem hexOperationsAreDigitOperations : Obligations.HexOperationsAreDigitOperations := by
  refine ⟨exec_setDigitHex, exec_setDigitsHex, fun v position s hi ho hp => ?_, fun vs start n s hi ho hn hs he => ?_⟩
  · obtain ⟨t, hexec, -, htrace, -⟩ := setDigitWritesOneDigit (hexPattern v) position s hi ho hp
    exact ⟨t, hexec, htrace⟩
  · rw [exec_setDigitsHex]
    exact exec_setDigits_map hexPattern hi ho hn hs he

/-- Settles O31: the equation, and O25 for the converted patterns and the clamped count. -/
theorem charOperationClampsThenWrites : Obligations.CharOperationClampsThenWrites := by
  refine ⟨exec_setDigitsChar, fun cs start n s hi ho hn hs he => ?_⟩
  rw [exec_setDigitsChar]
  exact exec_setDigits_map charPattern hi ho hn hs he

/-! ## The branches of `hexToPattern` (R98) -/

section
variable {v : Byte}

theorem hexPattern_digit (h : (codeBits v).toNat ≤ 9) : hexPattern v = seg (0x30 + codeBits v) ||| decimalPoint v := by
  simp only [hexPattern, hexPatternWith, if_pos h]

theorem hexPattern_letter (h : 10 ≤ (codeBits v).toNat ∧ (codeBits v).toNat ≤ 15) :
    hexPattern v = seg (0x61 + (codeBits v - 10)) ||| decimalPoint v := by
  have h9 : ¬(codeBits v).toNat ≤ 9 := by omega
  simp only [hexPattern, hexPatternWith, if_neg h9, if_pos h.2]

theorem hexPattern_upper (h : 0x41 ≤ (codeBits v).toNat ∧ (codeBits v).toNat ≤ 0x46) :
    hexPattern v = seg (codeBits v) ||| decimalPoint v := by
  have h9 : ¬(codeBits v).toNat ≤ 9 := by omega
  have h15 : ¬(codeBits v).toNat ≤ 15 := by omega
  simp only [hexPattern, hexPatternWith, if_neg h9, if_neg h15, if_pos h]

theorem hexPattern_lower (h : 0x61 ≤ (codeBits v).toNat ∧ (codeBits v).toNat ≤ 0x66) :
    hexPattern v = seg (codeBits v) ||| decimalPoint v := by
  have h9 : ¬(codeBits v).toNat ≤ 9 := by omega
  have h15 : ¬(codeBits v).toNat ≤ 15 := by omega
  simp only [hexPattern, hexPatternWith, if_neg h9, if_neg h15, if_pos h, ite_self]

theorem hexPattern_blank (h : 16 ≤ (codeBits v).toNat ∧ (codeBits v).toNat ≤ 0x40 ∨
    0x47 ≤ (codeBits v).toNat ∧ (codeBits v).toNat ≤ 0x60 ∨ 0x67 ≤ (codeBits v).toNat) :
    hexPattern v = decimalPoint v := by
  have h9 : ¬(codeBits v).toNat ≤ 9 := by omega
  have h15 : ¬(codeBits v).toNat ≤ 15 := by omega
  have hup : ¬(0x41 ≤ (codeBits v).toNat ∧ (codeBits v).toNat ≤ 0x46) := by omega
  have hlow : ¬(0x61 ≤ (codeBits v).toNat ∧ (codeBits v).toNat ≤ 0x66) := by omega
  simp only [hexPattern, hexPatternWith, if_neg h9, if_neg h15, if_neg hup, if_neg hlow]
  exact BitVec.zero_or

end

/-- Settles O32: one lemma for each branch. -/
theorem hexToPatternTakesItsBranch : Obligations.HexToPatternTakesItsBranch := by
  intro value s
  refine ⟨hexPattern value, rfl, ?_⟩
  rintro _ _ rfl rfl
  exact ⟨hexPattern_digit, hexPattern_letter, hexPattern_upper, hexPattern_lower, hexPattern_blank⟩

/-! ## The decimal point (R98, R101, R109) -/

theorem supportedCode_hexDigit : ∀ v : BitVec 7, v.toNat ≤ 9 → supportedCode (0x30 + v) = true := by decide

theorem supportedCode_hexLetter :
    ∀ v : BitVec 7, 10 ≤ v.toNat ∧ v.toNat ≤ 15 → supportedCode (0x61 + (v - 10)) = true := by decide

theorem supportedCode_of_upper {c : BitVec 7} (h : 0x41 ≤ c.toNat ∧ c.toNat ≤ 0x5A) : supportedCode c = true := by
  simp [supportedCode, isUpperCode, h]

theorem supportedCode_of_lower {c : BitVec 7} (h : 0x61 ≤ c.toNat ∧ c.toNat ≤ 0x7A) : supportedCode c = true := by
  simp [supportedCode, isLowerCode, h]

/-- `hexToPattern` looks up a supported code or is blank, and ORs in the decimal point. -/
theorem hexPattern_cases (v : Byte) :
    (∃ c, supportedCode c = true ∧ hexPattern v = seg c ||| decimalPoint v) ∨ hexPattern v = decimalPoint v := by
  by_cases hdigit : (codeBits v).toNat ≤ 9
  · exact .inl ⟨_, supportedCode_hexDigit _ hdigit, hexPattern_digit hdigit⟩
  by_cases hletter : 10 ≤ (codeBits v).toNat ∧ (codeBits v).toNat ≤ 15
  · exact .inl ⟨_, supportedCode_hexLetter _ hletter, hexPattern_letter hletter⟩
  by_cases hupper : 0x41 ≤ (codeBits v).toNat ∧ (codeBits v).toNat ≤ 0x46
  · exact .inl ⟨_, supportedCode_of_upper (by omega), hexPattern_upper hupper⟩
  by_cases hlower : 0x61 ≤ (codeBits v).toNat ∧ (codeBits v).toNat ≤ 0x66
  · exact .inl ⟨_, supportedCode_of_lower (by omega), hexPattern_lower hlower⟩
  · exact .inr (hexPattern_blank (by omega))

/-- A supported code's pattern takes its bit 7 from the input. -/
theorem getLsbD_seg_or_decimalPoint {c : BitVec 7} (h : supportedCode c = true) (v : Byte) :
    (seg c ||| decimalPoint v).getLsbD 7 = v.getLsbD 7 := by
  rw [BitVec.getLsbD_or, seg_supported_dp h, getLsbD_decimalPoint]
  rfl

/-- Settles O34: the table gives bit 7 of no supported code, so the input does. -/
theorem decimalPointIsPreserved : Obligations.DecimalPointIsPreserved := by
  refine ⟨fun v => ?_, fun ch h => getLsbD_seg_or_decimalPoint h ch⟩
  obtain ⟨c, hc, hp⟩ | hp := hexPattern_cases v
  · rw [hp, getLsbD_seg_or_decimalPoint hc]
  · rw [hp, getLsbD_decimalPoint]
    rfl

/-- The sentinel holds the decimal point already. -/
theorem sentinel_or_decimalPoint (v : Byte) : 0x80 ||| decimalPoint v = 0x80 := by
  apply BitVec.eq_of_getLsbD_eq
  intro j hj
  rw [BitVec.getLsbD_or, getLsbD_decimalPoint]
  by_cases h7 : j = 7
  · rw [h7]
    rfl
  · simp [h7]

/-- Settles O33: the definition of the character path, and the sentinel of an unsupported code. -/
theorem charToPatternLooksUp : Obligations.CharToPatternLooksUp := fun ch _ =>
  ⟨charPattern ch, rfl, rfl, fun h => by
    rw [charPattern, charPatternWith, codeBits, seg_unsupported h, sentinel_or_decimalPoint]⟩

/-! ## The Segment Encoding Table (R109 to R112) -/

/-- Settles O35: the space and the punctuation are the listed codes, and the table's laws say what each code gives. -/
theorem segmentTableSupportsExactlyTheSet : Obligations.SegmentTableSupportsExactlyTheSet := by
  refine ⟨fun c => ?_, fun _ => seg_supported_dp, seg_space, fun _ => seg_unsupported⟩
  have hlist : c ∈ 0x20 :: punctuation ↔ c.toNat ∈ (0x20 :: punctuation).map BitVec.toNat :=
    (List.mem_map_of_injective fun _ _ => BitVec.eq_of_toNat_eq).symm
  simp only [supportedCode, isDigitCode, isLowerCode, isUpperCode, Bool.or_eq_true, decide_eq_true_iff, beq_iff_eq,
    List.contains_iff_mem, or_assoc, ← List.mem_cons, hlist]
  rfl

/-- Settles O37: the injectivity over `distinctCode`, and bit 7, which only the sentinel has. -/
theorem segmentTableIsOneToOne : Obligations.SegmentTableIsOneToOne := by
  have distinct : ∀ {c : BitVec 7}, supportedCode c = true → isUpperCode c = false → distinctCode c = true :=
    fun hc hu => by rw [distinctCode, hc, hu]; rfl
  refine ⟨fun c d hc hd hcu hdu => seg_injective (distinct hc hcu) (distinct hd hdu), fun c hc _ hsentinel => ?_⟩
  have hbit : (seg c).getLsbD 7 = false := seg_supported_dp hc
  rw [hsentinel] at hbit
  exact absurd hbit (by decide)

/-- Settles O36: `seg_case_merge`. -/
theorem segmentTableMergesCase : Obligations.SegmentTableMergesCase := seg_case_merge

end Sys2Proof.Machine
end

section
/-! The Key Scan Decoder (spec/42_key_scan_decoder.md): which raw bit each mask bit is, the key-scan frame on the wires and
at the chip, and a scan made of transport operations. -/

namespace Sys2Proof.Machine

/-! ## The reorder (R122, R123, R125, R126) -/

/-- Settles O38: the definition of `decodeKeys`, which writes the result and the decoder's registers. -/
theorem decodeKeysIsTotalAndPure : Obligations.DecodeKeysIsTotalAndPure := fun _ _ => ⟨_, rfl, rfl, rfl⟩

/-- Settles O39: the closed form, nibble by nibble, and the preimage of each mask bit read off its binary digits. -/
theorem reorderHasItsClosedForm : Obligations.ReorderHasItsClosedForm := by
  refine ⟨fun raw i nib k hnib hk => ?_, fun j hj => ⟨?_, ?_⟩, fun i hi nib hnib k hk i' hi' nib' hnib' k' hk' h => ?_⟩
  · obtain rfl | rfl : nib = 0 ∨ nib = 1 := by omega
    · exact ⟨getLsbD_decodeKeysWith .low raw i false k hk, getLsbD_decodeKeysWith .high raw i false k hk⟩
    · exact ⟨getLsbD_decodeKeysWith .low raw i true k hk, getLsbD_decodeKeysWith .high raw i true k hk⟩
  · exact ⟨j % 8 / 2, by omega, 1 - j % 2, by omega, 2 - j / 8, by omega, by omega⟩
  · exact ⟨j % 8 / 2, by omega, j % 2, by omega, 2 - j / 8, by omega, by omega⟩
  · omega

/-- Every mask bit below 24 is a raw bit that is not ignored: bits 0 to 2 of a nibble, one for each key line. -/
theorem exists_rawBit_of_maskBit (nf : NibbleFirst) {j : Nat} (hj : j < 24) : ∃ (i : Fin 4) (n : Nat),
    n < 8 ∧ n ≠ 3 ∧ n ≠ 7 ∧ ∀ raw, (decodeKeysWith nf raw).getLsbD j = raw[i].getLsbD n := by
  obtain ⟨hform, hreach, -⟩ := reorderHasItsClosedForm
  obtain ⟨hlow, hhigh⟩ := hreach j hj
  cases nf with
  | low =>
    obtain ⟨i, hi, nib, hnib, k, hk, rfl⟩ := hlow
    exact ⟨⟨i, hi⟩, 4 * nib + k, by omega, by omega, by omega, fun raw => (hform raw ⟨i, hi⟩ nib k hnib hk).1⟩
  | high =>
    obtain ⟨i, hi, nib, hnib, k, hk, rfl⟩ := hhigh
    exact ⟨⟨i, hi⟩, 4 * nib + k, by omega, by omega, by omega, fun raw => (hform raw ⟨i, hi⟩ nib k hnib hk).2⟩

/-- Settles O40: a mask bit below 24 is a raw bit on which the two vectors agree, and the others are 0. -/
theorem ignoredRawBitsDoNotReachTheMask : Obligations.IgnoredRawBitsDoNotReachTheMask := by
  intro nf raw raw' hagree
  refine ⟨BitVec.eq_of_getLsbD_eq fun j _ => ?_, getLsbD_decodeKeysWith_high nf raw⟩
  rcases Nat.lt_or_ge j 24 with hj | hj
  · obtain ⟨i, n, hn, h3, h7, hbit⟩ := exists_rawBit_of_maskBit nf hj
    rw [hbit, hbit, hagree i n hn h3 h7]
  · rw [getLsbD_decodeKeysWith_high nf raw j hj, getLsbD_decodeKeysWith_high nf raw' j hj]

/-! ## The key-scan frame (R55, R121) -/

/-- A key scan completes on an initialised bus with no frame open. -/
theorem exec_scanKeys_of_inited {s : State} (h : s.inited = true) (ho : s.txnOpen = false) :
    exec .scanKeys s =
      .next ((({ s.frameKeys with work := { s.frameKeys.work with raw := s.rawKeys } }).decoded s.rawKeys).withRet
        (.mask (decodeRaw s.rawKeys))) :=
  guarded_next_iff.mpr ⟨State.protocolGuard_none_iff.mpr ⟨h, ho⟩, rfl⟩

/-- While the queue of answers lasts, the wire answers what stands in it (R6, R21). -/
theorem State.answers_of_le {s : State} {n : Nat} (h : n ≤ s.draws.length) : s.answers n = s.draws.take n := by
  rw [State.answers, Nat.sub_eq_zero_of_le h, List.range_zero, List.map_nil, List.append_nil]

/-- Bit `j` of raw byte `m` is sample `8m + j` (R75, R121). -/
theorem State.getLsbD_rawKeys (s : State) (m : Fin 4) {j : Nat} (hj : j < 8) :
    s.rawKeys[m].getLsbD j = (s.keysAsked.answers 32).getD (8 * m + j) false := by
  have hm : s.rawKeys[m] = (s.keysAsked.received 4).getD m 0 := by simp [State.rawKeys]
  rw [hm]
  exact getLsbD_bytesOfBits 4 m j _ m.isLt hj

/-- The events of a key-scan frame: one byte out, the line turned, the samples in. -/
theorem State.frameKeys_trace (s : State) : s.frameKeys.trace = s.trace ++
    (.strobe false :: writeEvents [s.codes.dataReadKeys] ++ readEvents (s.keysAsked.answers 32) ++ [.strobe true]) := by
  simp [State.frameKeys, State.keysAsked, Config.nRaw]

/-- After a key-scan frame: strobe and clock high, the data line an input. -/
theorem State.frameKeys_pins (s : State) : s.frameKeys.pins =
    { clk := true, stb := true, dioOut := s.codes.dataReadKeys.getLsbD 7, dioDir := .input } := by
  rw [State.frameKeys, State.endTxn_pins, State.recvBytes_pins, foldl_readEvents, State.keysAsked,
    State.sendBytes_pins, foldl_writeEvents]
  simp

/-- On an idle bus the frame reaches the chip, which takes the mode of its byte and keeps its display (R19, R121). -/
theorem State.frameKeys_chip {s : State} (hf : s.framing = .idle) (hk : s.codes.Ok) : s.frameKeys.framing = .idle ∧
    s.frameKeys.peer.dr = s.peer.dr ∧ s.frameKeys.peer.dispOn = s.peer.dispOn ∧
    s.frameKeys.peer.bright = s.peer.bright ∧ s.frameKeys.peer.mode = modeReadKeys := by
  obtain ⟨hopened, hp₁⟩ := State.startTxn_idle hf
  obtain ⟨hwrote, hp₂⟩ := State.sendBytes_opened [s.codes.dataReadKeys] hopened
  obtain ⟨hread, hp₃⟩ := State.recvBytes_wrote 4 hwrote
  obtain ⟨hidle, hp₄⟩ := State.endTxn_readBack hread
  have hpeer : s.frameKeys.peer = _ := hp₄.trans (Peer.frame_readKeys hk _ _ .normal .autoInc)
  rw [hpeer, hp₃, hp₂, hp₁]
  exact ⟨hidle, rfl, rfl, rfl, rfl⟩

/-- Settles O41: the laws of the key-scan frame, and the bytes its samples assemble. -/
theorem scanKeysReadsOneFrame : Obligations.ScanKeysReadsOneFrame := by
  intro s hi ho
  have hpins := s.frameKeys_pins
  refine ⟨_, s.keysAsked.answers 32, s.rawKeys, exec_scanKeys_of_inited hi ho, State.length_answers _ _,
    State.answers_of_le (s := s.keysAsked), s.frameKeys_trace.trans ?_, ?_, fun m _ => s.getLsbD_rawKeys m, rfl, rfl,
    congrArg Pins.stb hpins, congrArg Pins.clk hpins, congrArg Pins.dioDir hpins, rfl, rfl, hi, rfl, rfl,
    State.frameKeys_chip⟩
  · simp only [writeEvents, List.flatMap_singleton]
    rfl
  · refine (congrArg List.length s.frameKeys_trace).trans ?_
    simp

/-! ## A key scan made of transport operations (R121, PROG-4) -/

/-! No transport operation reads what the one before it returned. -/

theorem exec_writeBytes_withRet (bytes : List Byte) (s : State) (r : Ret) :
    exec (.writeBytes bytes) (s.withRet r) = exec (.writeBytes bytes) s := rfl

theorem exec_readBytes_withRet (count : Nat) (s : State) (r : Ret) :
    exec (.readBytes count) (s.withRet r) = exec (.readBytes count) s := rfl

theorem exec_endTransaction_withRet (s : State) (r : Ret) :
    exec .endTransaction (s.withRet r) = exec .endTransaction s := rfl

/-- Settles O42: the calls are the parts `scanKeys` is made of, and the list read is its vector of raw bytes. -/
theorem scanKeysIsItsTransportSequence : Obligations.ScanKeysIsItsTransportSequence := by
  intro s hi ho
  have started : exec .startTransaction s = .next (s.startTxn.withRet .none) := exec_startTransaction_of_inited hi
  have wrote : exec (.writeBytes [s.codes.dataReadKeys]) (s.startTxn.withRet .none) =
      .next (s.keysAsked.withRet .none) :=
    (exec_writeBytes_withRet _ _ _).trans (exec_writeBytes_of_inited (s := s.startTxn) hi _)
  have read : exec (.readBytes 4) (s.keysAsked.withRet .none) =
      .next ((s.keysAsked.recvBytes 4).withRet (.bytes (s.keysAsked.received 4))) :=
    (exec_readBytes_withRet _ _ _).trans (exec_readBytes_of_inited (s := s.keysAsked) hi 4)
  have ended : exec .endTransaction ((s.keysAsked.recvBytes 4).withRet (.bytes (s.keysAsked.received 4))) =
      .next (s.frameKeys.withRet .none) :=
    (exec_endTransaction_withRet _ _).trans (exec_endTransaction_of_inited (s := s.keysAsked.recvBytes 4) hi)
  exact ⟨_, _, _, _, _, _, _, s.rawKeys, started, wrote, read, rfl, s.rawKeys_toList, ended, rfl,
    exec_scanKeys_of_inited hi ho, rfl⟩

end Sys2Proof.Machine
end

section
/-! The debounce filter (spec/43_debounce_filter.md): the two operations, one key's transitions, and how a run of equal
samples settles a key. -/

namespace Sys2Proof.Machine

/-! ## The two operations (R136, R137) -/

/-- Settles O43: the zeroed Debounce State, read out counter by counter. -/
theorem debounceInitZeroes : Obligations.DebounceInitZeroes := fun _ =>
  ⟨_, rfl, fun i => by simp [Debounce.zero], rfl, rfl⟩

/-- Settles O44: each key moves by `debounceKey`, whose two laws are the two samples; the high bits have their
own law. -/
theorem debounceUpdateCountsThenDecides : Obligations.DebounceUpdateCountsThenDecides := by
  intro m s
  refine ⟨_, rfl, fun i => ⟨fun hm => ?_, fun hm => ?_⟩, s.debounce.update_stable_high m, rfl, rfl⟩
  · simp only [State.withRet_debounce, Debounce.update_cnt, Debounce.update_stable, Debounce.key, hm]
    exact debounceKey_pressed _ _
  · simp only [State.withRet_debounce, Debounce.update_cnt, Debounce.update_stable, Debounce.key, hm]
    exact debounceKey_released _ _

/-! ## One key's transition (R135, R138, R139) -/

/-- An update moves each key by its own counter, stable bit and sample. -/
theorem pair_of_exec_debounceUpdate {m : Mask} {s t : State} (he : exec (.debounceUpdate m) s = .next t) (i : Fin 24) :
    t.debounce.pair i = debounceKey s.debounce.cnt[i] (s.debounce.stable.getLsbD i) (m.getLsbD i) := by
  have hd : t.debounce = s.debounce.update m := congrArg Control.debounce (exec_control he)
  rw [hd, Debounce.pair_update]
  rfl

/-- Settles O47: both updates move the key by the same three values. -/
theorem debounceKeysAreIndependent : Obligations.DebounceKeysAreIndependent := by
  intro m m' s s' t t' i hm hc hs he he'
  have hpair : t.debounce.pair i = t'.debounce.pair i := by
    rw [pair_of_exec_debounceUpdate he, pair_of_exec_debounceUpdate he', hm, hc, hs]
  exact Prod.mk.inj hpair

/-- Settles O45: row by row, the entries of the table are values of `debounceKey`. -/
theorem debounceFollowsItsTransitionTable : Obligations.DebounceFollowsItsTransitionTable := by
  intro row hrow
  have entry : ∀ sample, debounceKey row.1.1 row.1.2 sample = if sample then row.2.1 else row.2.2 := by
    fin_cases hrow <;> decide
  intro m s t i hs he
  rw [← entry, ← hs]
  exact pair_of_exec_debounceUpdate he i

/-- A stable bit that rises had its counter at 3, and the sample that took it to 4 was a pressed one. -/
theorem debounceKey_rises : ∀ (c : BitVec 3) (sample : Bool), c ≠ 4 → (debounceKey c false sample).2 = true →
    c = 3 ∧ (debounceKey c false sample).1 = 4 ∧ sample = true := by decide

/-- A stable bit that falls had its counter at 1, and the sample that took it to 0 was a released one. -/
theorem debounceKey_falls : ∀ (c : BitVec 3) (sample : Bool), c ≠ 0 → (debounceKey c true sample).2 = false →
    c = 1 ∧ (debounceKey c true sample).1 = 0 ∧ sample = false := by decide

/-- Settles O48: by the invariant a clear bit's counter is not at 4 and a set bit's not at 0, so one key's two laws
apply. -/
theorem stableBitChangesOnlyAtTheEnds : Obligations.StableBitChangesOnlyAtTheEnds := by
  intro m s t i hok he
  obtain ⟨-, set_of_max, clear_of_zero⟩ := hok.1 i
  obtain ⟨hcnt, hstable⟩ := Prod.mk.inj (pair_of_exec_debounceUpdate he i)
  rw [hcnt, hstable]
  constructor
  · rintro ⟨hnew, hold⟩
    rw [hold] at hnew ⊢
    exact debounceKey_rises _ _ (fun hc => Bool.noConfusion (hold.symm.trans (set_of_max hc))) hnew
  · rintro ⟨hnew, hold⟩
    rw [hold] at hnew ⊢
    exact debounceKey_falls _ _ (fun hc => Bool.noConfusion (hold.symm.trans (clear_of_zero hc))) hnew

/-! ## A run of equal samples (R139) -/

/-- A key's counter and stable bit after one sample. -/
def sampleKey (sample : Bool) (q : BitVec 3 × Bool) : BitVec 3 × Bool := debounceKey q.1 q.2 sample

/-- A key settled at a sample: its counter at that end, its stable bit that sample. -/
def settledKey (sample : Bool) : BitVec 3 × Bool := (if sample then 4 else 0, sample)

/-- Under the invariant a counter at an end settles its key. -/
theorem Debounce.Ok.pair_of_saturated {d : Debounce} (h : d.Ok) {i : Fin 24} {sample : Bool}
    (hc : d.cnt[i] = if sample then 4 else 0) : d.pair i = settledKey sample := by
  obtain ⟨-, set_of_max, clear_of_zero⟩ := h.1 i
  refine Prod.ext hc ?_
  cases sample with
  | false => exact clear_of_zero hc
  | true => exact set_of_max hc

theorem sampleKey_settledKey : ∀ sample, sampleKey sample (settledKey sample) = settledKey sample := by decide

/-- `MAX` equal samples settle a key. -/
theorem sampleKey_iterate_four : ∀ (sample : Bool) (c : BitVec 3) (st : Bool), c ≤ 4 →
    (sampleKey sample)^[4] (c, st) = settledKey sample := by decide

/-- So do more of them, since a settled key stays as it is. -/
theorem sampleKey_iterate_of_four_le (sample : Bool) {n : Nat} (hn : 4 ≤ n) {q : BitVec 3 × Bool} (hq : q.1 ≤ 4) :
    (sampleKey sample)^[n] q = settledKey sample := by
  obtain ⟨k, rfl⟩ := Nat.exists_eq_add_of_le' hn
  rw [Function.iterate_add_apply, sampleKey_iterate_four sample q.1 q.2 hq,
    Function.iterate_fixed (sampleKey_settledKey sample)]

/-- Fewer than `MAX` opposite samples leave a settled key's stable bit. -/
theorem sampleKey_iterate_of_lt_four : ∀ (sample : Bool), ∀ n < 4,
    ((sampleKey sample)^[n] (settledKey !sample)).2 = !sample := by decide

/-- Settles O46: the run is the iteration of one key's sample, from a counter of at most `MAX` or from the opposite
end. -/
theorem debounceSettlesAfterMaxSamples : Obligations.DebounceSettlesAfterMaxSamples := by
  intro d i samples pressed hok hs
  have run : (samples.foldl Debounce.update d).pair i = (sampleKey pressed)^[samples.length] (d.pair i) :=
    Debounce.pair_foldl pressed i samples d hs
  constructor
  · intro hn
    exact Prod.mk.inj (run.trans (sampleKey_iterate_of_four_le pressed hn (hok.1 i).1))
  · intro hn hc
    have opposite : d.pair i = settledKey !pressed := hok.pair_of_saturated (by cases pressed <;> exact hc)
    rw [opposite] at run
    exact (congrArg Prod.snd run).trans (sampleKey_iterate_of_lt_four pressed _ hn)

end Sys2Proof.Machine
end

section
/-! The exceptions (spec/60_exceptions.md): which calls run and which are refused under which name, what a step can be,
and what a misused transport operation does to the chip. -/

namespace Sys2Proof.Machine

/-! ## Each call's check (R152) -/

/-- The check of a call in a state: its refusal, none where its preconditions hold (log 24). -/
def callGuard (s : State) : Instr → Option Refusal
  | .startTransaction | .endTransaction | .writeBytes _ | .readBytes _ => s.busGuard
  | .init => s.initGuard
  | .deinit => s.deinitGuard
  | .setLeds _ | .scanKeys => s.protocolGuard
  | .configureDisplay b _ => s.protocolGuard.or (brightnessGuard b)
  | .setDigit _ pos | .setDigitHex _ pos => s.protocolGuard.or (digitsGuard pos 1 1)
  | .setDigits ps start n | .setDigitsHex ps start n => s.protocolGuard.or (digitsGuard start n ps.length)
  | .setDigitsChar cs start n => s.protocolGuard.or (digitsGuard start (min n 8) cs.length)
  | .hexToPattern _ | .charToPattern _ | .decodeKeys _ | .debounceInit | .debounceUpdate _ | .cmdDataWriteAutoinc
  | .cmdDataWriteFixed | .cmdDataReadKeys | .cmdDisplay _ _ | .cmdAddr _ => none

/-- An instruction is its check, and one next state behind it. -/
theorem exec_eq_guarded (i : Instr) (s : State) : ∃ t, exec i s = guarded (callGuard s i) t := by
  cases i <;> exact ⟨_, rfl⟩

theorem exec_next_iff {i : Instr} {s : State} : (∃ t, exec i s = .next t) ↔ callGuard s i = none := by
  obtain ⟨t, h⟩ := exec_eq_guarded i s
  simp [h, guarded_next_iff]

theorem exec_refused_iff {i : Instr} {s : State} {r : Refusal} :
    exec i s = .refused r ↔ callGuard s i = some r := by
  obtain ⟨t, h⟩ := exec_eq_guarded i s
  rw [h, guarded_refused_iff]

/-- The check of a digit operation, in the words of R96 and R105. -/
theorem digitsCallGuard_none_iff {s : State} {start n len : Nat} :
    s.protocolGuard.or (digitsGuard start n len) = none ↔
      s.inited = true ∧ s.txnOpen = false ∧ n ≤ len ∧ start ≤ 7 ∧ start + n ≤ 8 := by
  rw [or_none_iff, State.protocolGuard_none_iff, digitsGuard_none_iff, digitsInRange_iff, and_assoc]

/-- The check of an operation on one digit is that of its position. -/
theorem digitCallGuard_none_iff {s : State} {pos : Nat} :
    s.protocolGuard.or (digitsGuard pos 1 1) = none ↔ s.inited = true ∧ s.txnOpen = false ∧ pos ≤ 7 := by
  rw [digitsCallGuard_none_iff]
  exact and_congr_right fun _ => and_congr_right fun _ => by omega

theorem displayCallGuard_none_iff {s : State} {b : Nat} :
    s.protocolGuard.or (brightnessGuard b) = none ↔ s.inited = true ∧ s.txnOpen = false ∧ b ≤ 7 := by
  rw [or_none_iff, State.protocolGuard_none_iff, brightnessGuard_none_iff, and_assoc]

/-- The check passes exactly under the preconditions of the table of R152. -/
theorem callGuard_none_iff {i : Instr} {s : State} : callGuard s i = none ↔ Allowed i s := by
  cases i with
  | startTransaction | endTransaction | writeBytes | readBytes => exact State.busGuard_none_iff
  | init => exact State.initGuard_none_iff
  | deinit => exact State.deinitGuard_none_iff
  | setLeds | scanKeys => exact State.protocolGuard_none_iff
  | configureDisplay => exact displayCallGuard_none_iff
  | setDigit | setDigitHex => exact digitCallGuard_none_iff
  | setDigits | setDigitsHex | setDigitsChar => exact digitsCallGuard_none_iff
  | hexToPattern | charToPattern | decodeKeys | debounceInit | debounceUpdate | cmdDataWriteAutoinc
  | cmdDataWriteFixed | cmdDataReadKeys | cmdDisplay | cmdAddr => exact iff_of_true rfl trivial

/-- Settles O9: an instruction is its check, and the check passes exactly under the preconditions. -/
theorem callsRunExactlyWhenAllowed : Obligations.CallsRunExactlyWhenAllowed := by
  refine fun i s => ⟨fun h => exec_next_iff.mpr (callGuard_none_iff.mpr h), fun h => ?_⟩
  obtain ⟨r, hr⟩ := Option.ne_none_iff_exists'.mp (mt callGuard_none_iff.mp h)
  exact ⟨r, exec_refused_iff.mpr hr⟩

/-! ## What a step can be (R150, R152) -/

/-- Settles O11: an empty queue and a byte on the wire always step, and O9 says the rest of a call. -/
theorem everyStepSucceedsOrIsAViolation : Obligations.EveryStepSucceedsOrIsAViolation := by
  intro s
  match hq : s.requests with
  | [] => exact .inl ⟨_, step_of_no_request hq⟩
  | .wire _ :: _ => exact .inl ⟨_, step_wire hq⟩
  | .call i :: rest =>
    rw [step_of_fetch_instr (State.fetch_call hq), State.popRequest_of_cons hq]
    obtain ⟨runs, refuses⟩ := callsRunExactlyWhenAllowed i { s with requests := rest }
    by_cases h : Allowed i { s with requests := rest }
    · exact .inl (runs h)
    · obtain ⟨r, hr⟩ := refuses h
      exact .inr ⟨i, rest, r, rfl, h, hr⟩

/-! ## The names of the refusals (R152; log 24) -/

theorem State.busGuard_of_not_inited {s : State} (h : s.inited = false) : s.busGuard = some .notInitialised := by
  simp [State.busGuard, h]

/-- A check that starts with the bus's refuses by its name. -/
theorem State.busGuard_or_of_not_inited {s : State} (h : s.inited = false) (g : Option Refusal) :
    s.busGuard.or g = some .notInitialised := by
  rw [State.busGuard_of_not_inited h, Option.some_or]

theorem State.busGuard_or_of_inited {s : State} (h : s.inited = true) (g : Option Refusal) : s.busGuard.or g = g := by
  rw [State.busGuard_none_iff.mpr h, Option.none_or]

theorem State.initGuard_of_inited {s : State} (h : s.inited = true) : s.initGuard = some .alreadyInitialised := by
  simp [State.initGuard, h]

theorem State.deinitGuard_of_txnOpen {s : State} (h : s.inited = true) (ho : s.txnOpen = true) :
    s.deinitGuard = some .deinitInsideFrame := by
  rw [State.deinitGuard, State.busGuard_or_of_inited h, if_pos ho]

theorem State.protocolGuard_of_txnOpen {s : State} (h : s.inited = true) (ho : s.txnOpen = true) :
    s.protocolGuard = some .protocolInsideFrame := by
  rw [State.protocolGuard, State.busGuard_or_of_inited h, if_pos ho]

theorem brightnessGuard_of_gt {b : Nat} (h : 7 < b) : brightnessGuard b = some .brightnessOutOfRange :=
  if_neg h.not_ge

theorem digitsGuard_of_short {start n len : Nat} (h : len < n) : digitsGuard start n len = some .listTooShort :=
  if_neg h.not_ge

theorem digitsGuard_of_range {start n len : Nat} (hn : n ≤ len) (h : 7 < start ∨ 8 < start + n) :
    digitsGuard start n len = some .positionOutOfRange := by
  rw [digitsGuard, if_pos hn, if_neg (by simp only [Config.nDigits]; omega)]

/-- An operation that sends frames of its own is refused as the protocol's check says, before its arguments are read. -/
theorem exec_refused_of_protocolGuard {i : Instr} {s : State} {r : Refusal} (hi : sendsOwnFrames i = true)
    (h : s.protocolGuard = some r) : exec i s = .refused r := by
  refine exec_refused_iff.mpr ?_
  cases i with
  | setLeds | scanKeys => exact h
  | configureDisplay | setDigit | setDigits | setDigitHex | setDigitsHex | setDigitsChar =>
    rw [callGuard, h, Option.some_or]
  | _ => cases hi

/-- On a free bus the arguments' own check names the refusal. -/
theorem State.protocolGuard_or_of_inited {s : State} (h : s.inited = true) (ho : s.txnOpen = false)
    (g : Option Refusal) : s.protocolGuard.or g = g := by
  rw [State.protocolGuard_none_iff.mpr ⟨h, ho⟩, Option.none_or]

/-- Settles O10: each check that fails gives its own name, and the earlier ones pass. -/
theorem violationsAreRefusedByName : Obligations.ViolationsAreRefusedByName := by
  refine ⟨fun s h i hi => ?_, fun s h => exec_refused_iff.mpr (State.initGuard_of_inited h), fun s h ho =>
    ⟨exec_refused_iff.mpr (State.deinitGuard_of_txnOpen h ho), fun i hi =>
      exec_refused_of_protocolGuard hi (State.protocolGuard_of_txnOpen h ho)⟩, fun s h ho => ?_⟩
  · have bus := State.busGuard_of_not_inited h
    rcases hi with rfl | rfl | ⟨bs, rfl⟩ | ⟨n, rfl⟩ | rfl | hi
    · exact exec_refused_iff.mpr bus
    · exact exec_refused_iff.mpr bus
    · exact exec_refused_iff.mpr bus
    · exact exec_refused_iff.mpr bus
    · exact exec_refused_iff.mpr (State.busGuard_or_of_not_inited h _)
    · exact exec_refused_of_protocolGuard hi (State.busGuard_or_of_not_inited h _)
  · have named : ∀ {i : Instr} {g : Option Refusal} {r : Refusal}, g = some r →
        callGuard s i = s.protocolGuard.or g → exec i s = .refused r := fun hg hi =>
      exec_refused_iff.mpr (hi.trans ((State.protocolGuard_or_of_inited h ho _).trans hg))
    refine ⟨fun b on hb => named (brightnessGuard_of_gt hb) rfl, fun p pos hp => ?_, fun ps start n hn => ?_,
      fun ps start n hn hr => ?_, fun cs start n hn => named (digitsGuard_of_short hn) rfl,
      fun cs start n hn hr => named (digitsGuard_of_range hn hr) rfl⟩
    · have range := digitsGuard_of_range (le_refl 1) (.inl hp : 7 < pos ∨ 8 < pos + 1)
      exact ⟨named range rfl, named range rfl⟩
    · exact ⟨named (digitsGuard_of_short hn) rfl, named (digitsGuard_of_short hn) rfl⟩
    · exact ⟨named (digitsGuard_of_range hn hr) rfl, named (digitsGuard_of_range hn hr) rfl⟩

/-! ## A broken framing premise (R152, R176; log 18) -/

theorem Framing.next_start_of_ne_idle {f : Framing} (h : f ≠ .idle) : f.next .start = .broken := by
  cases f with
  | idle => exact absurd rfl h
  | _ => rfl

theorem Framing.next_stop_of_unwritten {f : Framing} (h : f = .idle ∨ f = .opened) : f.next .stop = .broken := by
  rcases h with rfl | rfl <;> rfl

theorem Framing.next_write_of_ne_opened {f : Framing} (bytes : List Byte) (h : f ≠ .opened) :
    f.next (.write bytes) = .broken := by
  cases f with
  | opened => exact absurd rfl h
  | _ => rfl

theorem Framing.next_read_of_ne_wrote {f : Framing} (h : ∀ sent, f ≠ .wrote sent) : f.next .read = .broken := by
  cases f with
  | wrote sent => exact absurd rfl (h sent)
  | _ => rfl

theorem Framing.next_broken (act : BusAct) : Framing.broken.next act = .broken := rfl

/-- Where the operation leaves the premise broken, nothing is known of the chip. -/
theorem Peer.after_of_next_broken (p : Peer) (k : CommandBytes) (n : Nat) {f : Framing} {act : BusAct}
    (h : f.next act = .broken) : p.after k n f act = Peer.unknown n := by
  unfold Peer.after
  split
  case h_6 => rfl
  all_goals cases h

/-- Settles O22: the event is emitted in any framing, and where it breaks the premise the chip is unknown. -/
theorem misuseEmitsAndLosesTheChip : Obligations.MisuseEmitsAndLosesTheChip := by
  refine ⟨fun s hi hf => ?_, fun s hi hf => ?_, fun s bytes hi hf => ?_, fun s count hi hf => ?_⟩
  · have hb := Framing.next_start_of_ne_idle hf
    exact ⟨_, exec_startTransaction_of_inited hi, rfl, hb, Peer.after_of_next_broken _ _ _ hb⟩
  · have hb := Framing.next_stop_of_unwritten hf
    exact ⟨_, exec_endTransaction_of_inited hi, rfl, hb, Peer.after_of_next_broken _ _ _ hb⟩
  · have hb := Framing.next_write_of_ne_opened bytes hf
    exact ⟨_, exec_writeBytes_of_inited hi bytes, rfl, hb, Peer.after_of_next_broken _ _ _ hb⟩
  · have hb := Framing.next_read_of_ne_wrote hf
    exact ⟨_, exec_readBytes_of_inited hi count, rfl, hb, _, Peer.after_of_next_broken _ _ _ hb⟩

/-- No shared operation mends a broken premise. -/
theorem closed_framing_broken : Closed fun s => s.framing = .broken where
  start    := fun s _ h => by rw [State.startTxn_framing, h, Framing.next_broken]
  send     := fun s _ _ h => by rw [State.sendBytes_framing, h, Framing.next_broken]
  recv     := fun s _ _ h => by rw [State.recvBytes_framing, h, Framing.next_broken]
  stop     := fun s _ h => by rw [State.endTxn_framing, h, Framing.next_broken]
  up       := fun _ _ h => h
  down     := fun _ _ _ h => h
  zeroed   := fun _ h => h
  sampled  := fun _ _ h => h
  chip     := fun s b h => by simp only [State.chipFrame_framing, h, Framing.next_broken]
  working  := fun _ _ h => h
  returned := fun _ _ h => h

/-- Settles O23: a broken premise is kept by every shared operation. -/
theorem brokenFramingStaysBroken : Obligations.BrokenFramingStaysBroken := fun _ _ _ hf he =>
  exec_closed closed_framing_broken he hf

end Sys2Proof.Machine
end

section
/-! Reset and hazards (spec/70_reset_and_hazards.md): the framing premise as complete frames, the settle delay after a turn
of the data line, and how long each operation waits. -/

namespace Sys2Proof.Machine

/-! ## The framing premise is complete frames (R176) -/

/-- The transport operations of one complete frame: the bytes it writes, and whether it reads. -/
def frameActs (f : List Byte × Bool) : List BusAct :=
  [.start, .write f.1] ++ (if f.2 then [.read] else []) ++ [.stop]

/-- The transport operations made in the frame now open. -/
def Framing.pending : Framing → List BusAct
  | .idle => []
  | .opened => [.start]
  | .wrote bytes => [.start, .write bytes]
  | .readBack bytes => [.start, .write bytes, .read]
  | .broken => []

/-- A complete frame leads from an idle bus back to an idle bus. -/
theorem Framing.foldl_next_frameActs (f : List Byte × Bool) : (frameActs f).foldl Framing.next .idle = .idle := by
  obtain ⟨bytes, _ | _⟩ := f <;> rfl

/-- So do complete frames one after another. -/
theorem Framing.foldl_next_flatMap_frameActs (frames : List (List Byte × Bool)) :
    (frames.flatMap frameActs).foldl Framing.next .idle = .idle := by
  induction frames with
  | nil => rfl
  | cons f frames ih => rw [List.flatMap_cons, List.foldl_append, Framing.foldl_next_frameActs, ih]

/-- An operation that keeps the premise joins the open frame, or completes it. -/
theorem Framing.pending_next {f : Framing} {act : BusAct} (h : f.next act ≠ .broken) :
    ∃ done : List (List Byte × Bool), f.pending ++ [act] = done.flatMap frameActs ++ (f.next act).pending := by
  unfold Framing.next at h ⊢
  split at h
  case h_1 => exact ⟨[], rfl⟩
  case h_2 => exact ⟨[], rfl⟩
  case h_3 => exact ⟨[], rfl⟩
  case h_4 bytes => exact ⟨[(bytes, false)], rfl⟩
  case h_5 bytes => exact ⟨[(bytes, true)], rfl⟩
  case h_6 => exact absurd rfl h

/-- While the premise is kept, the operations made are complete frames and those of the frame now open. -/
theorem Framing.exists_frames_of_kept (acts : List BusAct) (h : acts.foldl Framing.next .idle ≠ .broken) :
    ∃ frames : List (List Byte × Bool),
      acts = frames.flatMap frameActs ++ (acts.foldl Framing.next .idle).pending := by
  induction acts using List.reverseRecOn with
  | nil => exact ⟨[], rfl⟩
  | append_singleton acts act ih =>
    rw [List.foldl_concat] at h ⊢
    have kept : acts.foldl Framing.next .idle ≠ .broken := fun hb => h (by rw [hb, Framing.next_broken])
    obtain ⟨frames, hframes⟩ := ih kept
    obtain ⟨done, hdone⟩ := Framing.pending_next h
    refine ⟨frames ++ done, ?_⟩
    rw [List.flatMap_append, List.append_assoc, ← hdone, ← List.append_assoc, ← hframes]

/-- Settles O21: on an idle bus no operation is pending, so the operations made are complete frames. -/
theorem framingPremiseIsCompleteFrames : Obligations.FramingPremiseIsCompleteFrames := by
  refine fun acts => ⟨fun h => ?_, ?_⟩
  · obtain ⟨frames, hframes⟩ := Framing.exists_frames_of_kept acts (by rw [h]; exact Framing.noConfusion)
    rw [h] at hframes
    exact ⟨frames, hframes.trans (List.append_nil _)⟩
  · rintro ⟨frames, rfl⟩
    exact Framing.foldl_next_flatMap_frameActs frames

/-! ## The protocol operations keep the premise (R104, R176) -/

theorem State.BusIdle.modeAndWrites {s : State} (ws : List (BitVec 4 × Byte)) (h : s.BusIdle) :
    (s.modeAndWrites ws).BusIdle where
  inited  := (s.modeAndWrites_inited ws).trans h.inited
  txnOpen := State.frameWrites_txnOpen ws rfl
  framing := State.frameWrites_framing ws (State.sendFrame_framing _ h.framing)

theorem State.BusIdle.frameKeys {s : State} (h : s.BusIdle) : s.frameKeys.BusIdle where
  inited  := h.inited
  txnOpen := rfl
  framing := by
    obtain ⟨hopened, -⟩ := State.startTxn_idle h.framing
    obtain ⟨hwrote, -⟩ := State.sendBytes_opened [s.codes.dataReadKeys] hopened
    obtain ⟨hread, -⟩ := State.recvBytes_wrote 4 hwrote
    exact (State.endTxn_readBack hread).1

/-- Settles O24: a write frame, a round of writes and a key-scan frame each end on an idle bus, and the operations that
send frames of their own are made of these. -/
theorem protocolOperationsKeepFraming : Obligations.ProtocolOperationsKeepFraming := by
  intro i s t hi h he
  cases i with
  | configureDisplay b on =>
    obtain ⟨_, rfl⟩ := guarded_next_iff.mp he
    exact (((h.sendFrame _).modeAndWrites _).modeAndWrites _).withRet _
  | setDigit | setDigits | setLeds | setDigitHex | setDigitsHex | setDigitsChar =>
    obtain ⟨_, rfl⟩ := guarded_next_iff.mp he
    exact (h.modeAndWrites _).withRet _
  | scanKeys =>
    obtain ⟨_, rfl⟩ := guarded_next_iff.mp he
    exact ⟨h.frameKeys.inited, h.frameKeys.txnOpen, h.frameKeys.framing⟩
  | _ => cases hi

/-! ## The settle delay (R173) -/

/-- Every turn of the data line to an input is followed at once by the settle delay. -/
def TurnsSettle (es : List Event) : Prop :=
  ∀ before after, es = before ++ .dataIn :: after → ∃ rest, after = .delay Config.tSettle :: rest

theorem turnsSettle_of_no_turn {es : List Event} (h : .dataIn ∉ es) : TurnsSettle es := by
  rintro before after rfl
  exact absurd List.mem_append_cons_self h

/-- A turn that settles has its delay in its own list, so the join comes between no turn and its delay. -/
theorem turnsSettle_append {es fs : List Event} (he : TurnsSettle es) (hf : TurnsSettle fs) : TurnsSettle (es ++ fs) := by
  intro before after h
  obtain ⟨mid, -, hfs⟩ | ⟨mid, hes, hmid⟩ := List.append_eq_append_iff.mp h
  · exact hf mid after hfs
  · cases mid with
    | nil => exact hf [] after hmid.symm
    | cons e mid =>
      obtain ⟨rfl, rfl⟩ := List.cons.inj hmid
      obtain ⟨rest, rfl⟩ := he before mid hes
      exact ⟨rest ++ fs, rfl⟩

/-- The turn of a `readBytes` (R75). -/
theorem turnsSettle_turn : TurnsSettle [.dataIn, .delay Config.tSettle] := by
  intro before after h
  cases before with
  | nil => exact ⟨[], (List.cons.inj h).2.symm⟩
  | cons e before =>
    have turn : Event.dataIn ∈ [Event.delay Config.tSettle] := (List.cons.inj h).2 ▸ List.mem_append_cons_self
    simp at turn

theorem dataIn_notMem_flatMap_readCell (bits : List Bool) : .dataIn ∉ bits.flatMap readCell := by
  simp only [List.mem_flatMap]
  rintro ⟨b, -, hb⟩
  simp [readCell] at hb

/-- Of the shared operations only the read turns the line to an input, and its settle delay is its second event. -/
theorem holdsOfOps_turnsSettle : HoldsOfOps TurnsSettle where
  nil    := turnsSettle_of_no_turn (by simp)
  append := turnsSettle_append
  strobe := fun _ => turnsSettle_of_no_turn (by simp)
  write  := fun _ => turnsSettle_of_no_turn (by simp [writeEvents, byteCells, writeCell])
  read   := fun bits => turnsSettle_append turnsSettle_turn (turnsSettle_of_no_turn (dataIn_notMem_flatMap_readCell bits))
  up     := turnsSettle_of_no_turn (by simp)
  down   := turnsSettle_of_no_turn (by simp)

/-- Settles O53: each shared operation's turns settle, so a step's do. -/
theorem settleDelayFollowsEveryTurnToInput : Obligations.SettleDelayFollowsEveryTurnToInput :=
  ⟨by decide, rfl, fun _ _ h => step_grew holdsOfOps_turnsSettle h⟩

/-! ## Busy-wait time (R183, R184) -/

/-- The microseconds an instruction waits: the table of R184, and 0 where it makes no delay. -/
def busyBound : Instr → Nat
  | .writeBytes bytes => 16 * bytes.length * Config.tHalf
  | .readBytes n => 5 + 16 * n * Config.tHalf
  | .scanKeys => 80 * Config.tHalf + 5
  | .setDigit _ _ | .setDigitHex _ _ => 48 * Config.tHalf
  | .setDigits _ _ n | .setDigitsHex _ _ n => (16 + 32 * n) * Config.tHalf
  | .setDigitsChar _ _ n => (16 + 32 * min n 8) * Config.tHalf
  | .setLeds _ => 272 * Config.tHalf
  | .configureDisplay _ _ => 560 * Config.tHalf
  | .startTransaction | .endTransaction | .init | .deinit | .hexToPattern _ | .charToPattern _ | .decodeKeys _
  | .debounceInit | .debounceUpdate _ | .cmdDataWriteAutoinc | .cmdDataWriteFixed | .cmdDataReadKeys
  | .cmdDisplay _ _ | .cmdAddr _ => 0

/-- `t` came from `s` by events that wait `n` microseconds. -/
def State.Waited (s t : State) (n : Nat) : Prop := ∃ es, t.trace = s.trace ++ es ∧ busyTime es = n

/-- No event, no wait. -/
theorem State.Waited.of_silent {s t : State} (ht : t.trace = s.trace) : s.Waited t 0 :=
  ⟨[], ht.trans (List.append_nil _).symm, rfl⟩

theorem busyTime_modeAndWritesEvents (k : CommandBytes) (ws : List (BitVec 4 × Byte)) :
    busyTime (modeAndWritesEvents k ws) = (16 + 32 * ws.length) * Config.tHalf := by
  rw [modeAndWritesEvents, busyTime_append, busyTime_frameEvents, busyTime_writesEvents, List.length_singleton]
  ring

/-- A round of digits waits for its mode-select frame and its `n` write frames. -/
theorem exec_setDigits_waited {ps : List Byte} {start n : Nat} {s t : State}
    (he : exec (.setDigits ps start n) s = .next t) : s.Waited t ((16 + 32 * n) * Config.tHalf) := by
  obtain ⟨hg, rfl⟩ := guarded_next_iff.mp he
  obtain ⟨-, -, hn, -, -⟩ := digitsCallGuard_none_iff.mp hg
  refine ⟨_, s.modeAndWrites_trace _, ?_⟩
  rw [busyTime_modeAndWritesEvents, length_digitWrites, List.length_take_of_le hn]

theorem exec_setLeds_waited {m : Byte} {s t : State} (he : exec (.setLeds m) s = .next t) :
    s.Waited t (272 * Config.tHalf) := by
  obtain ⟨-, rfl⟩ := guarded_next_iff.mp he
  refine ⟨_, s.modeAndWrites_trace _, ?_⟩
  rw [busyTime_modeAndWritesEvents, length_ledWrites]

theorem exec_configureDisplay_waited {b : Nat} {on : Bool} {s t : State}
    (he : exec (.configureDisplay b on) s = .next t) : s.Waited t (560 * Config.tHalf) := by
  obtain ⟨-, rfl⟩ := guarded_next_iff.mp he
  refine ⟨_, s.twoRounds_trace (.display on (BitVec.ofNat 3 b)) _ _, ?_⟩
  simp only [busyTime_append, busyTime_frameEvents, busyTime_modeAndWritesEvents, length_ledWrites, length_digitWrites,
    List.length_take, List.length_replicate, min_self, List.length_singleton]
  ring

theorem exec_scanKeys_waited {s t : State} (he : exec .scanKeys s = .next t) :
    s.Waited t (80 * Config.tHalf + 5) := by
  obtain ⟨-, rfl⟩ := guarded_next_iff.mp he
  refine ⟨_, s.frameKeys_trace, ?_⟩
  simp only [List.cons_append, busyTime_cons, busyTime_append, busyTime_nil, busyTime_writeEvents, busyTime_readEvents,
    State.length_answers, List.length_singleton, eventBusy]
  ring

/-- Every instruction waits its bound. -/
theorem exec_waited {i : Instr} {s t : State} (he : exec i s = .next t) : s.Waited t (busyBound i) := by
  cases i with
  | startTransaction | endTransaction | init | deinit =>
    obtain ⟨-, rfl⟩ := guarded_next_iff.mp he
    exact ⟨_, rfl, rfl⟩
  | writeBytes bytes =>
    obtain ⟨-, rfl⟩ := guarded_next_iff.mp he
    exact ⟨_, s.sendBytes_trace bytes, busyTime_writeEvents bytes⟩
  | readBytes n =>
    obtain ⟨-, rfl⟩ := guarded_next_iff.mp he
    refine ⟨_, s.recvBytes_trace n, ?_⟩
    rw [busyTime_readEvents, State.length_answers, ← Nat.mul_assoc]
    rfl
  | configureDisplay => exact exec_configureDisplay_waited he
  | setDigit p pos => exact exec_setDigits_waited ((exec_setDigit p pos s).symm.trans he)
  | setDigits => exact exec_setDigits_waited he
  | setLeds => exact exec_setLeds_waited he
  | setDigitHex v pos =>
    rw [exec_setDigitHex, exec_setDigit] at he
    exact exec_setDigits_waited he
  | setDigitsHex vs start n => exact exec_setDigits_waited ((exec_setDigitsHex vs start n s).symm.trans he)
  | setDigitsChar cs start n => exact exec_setDigits_waited ((exec_setDigitsChar cs start n s).symm.trans he)
  | scanKeys => exact exec_scanKeys_waited he
  | hexToPattern | charToPattern | decodeKeys | debounceInit | debounceUpdate =>
    cases he
    exact .of_silent (State.withRet_trace _ _)
  | cmdDataWriteAutoinc | cmdDataWriteFixed | cmdDataReadKeys | cmdDisplay | cmdAddr =>
    cases he
    exact .of_silent (s.chipFrame_trace _)

/-- Settles O57: each row is `busyBound` of its instruction. -/
theorem busyWaitBounds : Obligations.BusyWaitBounds := by
  intro i s t he
  obtain ⟨es, ht, hes⟩ := exec_waited he
  have row : ∀ {j : Instr}, i = j → busyTime es = busyBound j := fun h => hes.trans (congrArg busyBound h)
  refine ⟨es, ht, fun _ => row, fun _ => row, row, fun _ _ => row, fun _ _ _ => row, fun _ => row, fun _ _ => row, ?_⟩
  rintro (h | ⟨m, h⟩ | ⟨raw, h⟩)
  · exact row h
  · exact row h
  · exact row h

end Sys2Proof.Machine
end
